-- ==== Sys2Proof/Word.lean ====
section
/-! DEFINITION. The word types of BBSER and the two line levels (spec 00_scope R10, R11). -/

namespace Sys2Proof

/-- A command word or the STATUS word: 16 bits (30_encoding R74, 10_state R35). -/
abbrev Word := BitVec 16

/-- A data byte: 8 bits (00_scope R10). -/
abbrev Byte := BitVec 8

/-- A line level: `true` is HIGH and `false` is LOW (00_scope R11). -/
abbrev Level := Bool

/-- "mark", the idle level and the stop level (00_scope R11). -/
abbrev HIGH : Level := true

/-- "space", the start level (00_scope R11). -/
abbrev LOW : Level := false

end Sys2Proof
end

