-- ==== Sys2Proof/Config.lean ====
section
/-! DEFINITION. The parameters of 00_scope R6, and the free values: what the spec leaves open and no proof may see. -/

namespace Sys2Proof

/-- The parameters an implementer fixes when a BBSER is built (00_scope R6). They are constants of one BBSER and
arguments of the model (10_state R36); `State` carries them and no command writes them (log 2). -/
structure Config where
  /-- `C`, the buffer capacity in bytes. -/
  capacity : Nat
  /-- `IDLE_THRESHOLD`, the idle polls tolerated before the idle flush. -/
  idleThreshold : Nat
  /-- `T_MS`, the nominal bit period in milliseconds. -/
  tMs : Nat
deriving DecidableEq, Repr

/-- The source's literal `TV_US`, the start-validation window in microseconds (00_scope R6, 93 I1). -/
def TV_US : Nat := 950

/-- The source's literal `COMP_US`, the compensation margin in microseconds (00_scope R6, 93 I1). -/
def COMP_US : Nat := 50

/-- The configuration `State.reset` is built with: the one 95_test_vectors uses unless it says otherwise.
DESIGN CHOICE (log 2): the spec gives no default; statements hold for every configuration. -/
def Config.reference : Config := ⟨4, 16, 2⟩

/-- The timer's answer to the `n`-th free draw, where State lists no answer. FREE VALUE (log 4). -/
opaque Config.freeExpiry : Nat → Bool

/-- The level of the `n`-th free draw, where no rule fixes what `Pin.read()` returns: contention, or a read while the
pin itself drives (60_exceptions R213, R214, 93 I5). FREE VALUE (log 6). -/
opaque Config.freeLevel : Nat → Level

end Sys2Proof
end

