-- ==== Sys2Proof/Syntax.lean ====
section
/-! DEFINITION. The instructions of BBSER: its five host commands (30_encoding R75). -/

namespace Sys2Proof

/-- The five host commands, in the opcode table's order (30_encoding R75). -/
inductive Instr where
  /-- RESET: construction and re-initialisation (43_driver_and_host R175). -/
  | reset
  /-- POLL: one driver-task invocation (43_driver_and_host R171). -/
  | poll
  /-- ENQ b: enqueue one byte for transmission (43_driver_and_host R172). -/
  | enq (b : Byte)
  /-- DRAIN: take the received bytes (43_driver_and_host R173). -/
  | drain
  /-- STATUS: read the status word (43_driver_and_host R174). -/
  | status
deriving DecidableEq, Repr

end Sys2Proof
end

