-- ==== Sys2Proof/WellFormed.lean ====
section
/-! DEFINITION. What is well formed: a configuration (00_scope R8), an ENQ operand as a host writes it (30_encoding
R80), and an instruction. -/

namespace Sys2Proof

/-- `cfg_wf` of 00_scope R8. `IDLE_THRESHOLD ≥ 0` holds of every natural number. -/
abbrev Config.wf (c : Config) : Prop := 1 ≤ c.capacity ∧ c.capacity ≤ 255 ∧ 1 ≤ c.tMs

/-- A number is an ENQ operand exactly when it is a byte (30_encoding R80: an assembler refuses any other). -/
abbrev operandInRange (n : Nat) : Prop := n ≤ 255

/-- An instruction is well formed when its operand is one the encoding admits. The byte of ENQ admits every value of
its type (30_encoding R76), so every term of `Instr` is well formed. -/
def Instr.wf : Instr → Bool
  | .reset => true
  | .poll => true
  | .enq b => decide (operandInRange b.toNat)
  | .drain => true
  | .status => true

end Sys2Proof
end

