-- ==== Sys2Proof/Decode.lean ====
section
/-! DEFINITION. The command word (30_encoding R74 to R79): its fields, the opcode table, the decoder that refuses by
name, and the encoder. -/

namespace Sys2Proof

/-- Bits [15:12], the opcode (30_encoding R74). -/
def opField (w : Word) : BitVec 4 := w.extractLsb' 12 4

/-- Bits [11:8], reserved, 0 in every legal word (30_encoding R74). -/
def rsvField (w : Word) : BitVec 4 := w.extractLsb' 8 4

/-- Bits [7:0], the data byte of ENQ (30_encoding R74). It is taken as it stands (30_encoding R76). -/
def imm8Field (w : Word) : Byte := w.extractLsb' 0 8

/-- One row of the opcode map of 30_encoding R75. -/
structure Row where
  mnemonic : String
  pattern : Word
  mask : Word
  build : Byte → Instr

/-- The opcode map of 30_encoding R75, row by row. -/
def opcodeRows : List Row :=
  [ ⟨"RESET",  0x0000#16, 0xFFFF#16, fun _ => .reset⟩,
    ⟨"POLL",   0x1000#16, 0xFFFF#16, fun _ => .poll⟩,
    ⟨"ENQ",    0x2000#16, 0xFF00#16, fun b => .enq b⟩,
    ⟨"DRAIN",  0x3000#16, 0xFFFF#16, fun _ => .drain⟩,
    ⟨"STATUS", 0x4000#16, 0xFFFF#16, fun _ => .status⟩ ]

/-- A word belongs to the row for which `w & mask = match` (30_encoding R75). -/
def Row.hits (r : Row) (w : Word) : Bool := (w &&& r.mask) == r.pattern

/-- Why a word matches no row: the three cases 30_encoding R77 lists. The names are the model's (log 22). -/
inductive IllegalWord where
  /-- OP is in 0x5 to 0xF. -/
  | opUnassigned
  /-- OP is assigned and RSV is not 0. -/
  | rsvNotZero
  /-- A word other than ENQ whose IMM8 is not 0. -/
  | imm8NotZero
deriving DecidableEq, Repr

/-- The first of the three cases of 30_encoding R77 that a word of no row falls under. -/
def illegalBecause (w : Word) : IllegalWord :=
  if 5 ≤ (opField w).toNat then .opUnassigned
  else if rsvField w ≠ 0 then .rsvNotZero
  else .imm8NotZero

/-- Decoding is total: every word is one of the five commands or illegal (30_encoding R75, R77). -/
def decode (w : Word) : Except IllegalWord Instr :=
  match opcodeRows.find? (fun r => r.hits w) with
  | some r => .ok (r.build (imm8Field w))
  | none => .error (illegalBecause w)

/-- The OP field of a command (30_encoding R75). -/
def Instr.opcode : Instr → BitVec 4
  | .reset => 0x0
  | .poll => 0x1
  | .enq _ => 0x2
  | .drain => 0x3
  | .status => 0x4

/-- The IMM8 field of a command: ENQ's byte, 0 for every other (30_encoding R74). -/
def Instr.imm8 : Instr → Byte
  | .reset => 0
  | .poll => 0
  | .enq b => b
  | .drain => 0
  | .status => 0

/-- A command word laid out from its fields: OP, RSV = 0, IMM8 (30_encoding R74). -/
def encode (i : Instr) : Word := i.opcode ++ (0#4 ++ i.imm8)

/-- A command's mnemonic, as the opcode table spells it (30_encoding R75). -/
def Instr.mnemonic : Instr → String
  | .reset => "RESET"
  | .poll => "POLL"
  | .enq _ => "ENQ"
  | .drain => "DRAIN"
  | .status => "STATUS"

/-- The instruction the decoder reads from the low `nbits` bits of `w`. Every command is one 16-bit word
(30_encoding R79), so a number that needs more bits is no command. -/
def decodeTableWord (nbits w : Nat) : Option Instr :=
  if w % 2 ^ nbits < 2 ^ 16 then (decode (BitVec.ofNat 16 (w % 2 ^ nbits))).toOption else none

end Sys2Proof
end

