-- ==== Sys2Proof/Machine/State.lean ====
section
/-! DEFINITION. The state of one BBSER (spec 10_state), the observation of its last command, its faults and refusals,
and the state after RESET. -/

namespace Sys2Proof.Machine

/-- `mode` (10_state R21): which engine POLL runs. -/
inductive Mode where
  | receiving
  | sending
deriving DecidableEq, Repr

/-- The receive phases (10_state R22). -/
inductive RxPhase where
  | recvScan
  | recvValidate
  | recvData
  | recvStop
  | recvPause
deriving DecidableEq, Repr

/-- The transmit phases (10_state R22). -/
inductive TxPhase where
  | sendStart
  | sendData
  | sendStop
  | sendPause
deriving DecidableEq, Repr

/-- `pin_dir` (10_state R31). -/
inductive PinDir where
  | input
  | output
deriving DecidableEq, Repr

/-- The pin (10_state R31): its direction, and the level it drives while the direction is Out. -/
structure Pin where
  dir : PinDir
  out : Level
deriving DecidableEq, Repr

/-- The timer (10_state R30): whether it was ever armed, the duration of the last arm in microseconds, and whether an
expiry sample since the last arm was true (40_timing R107 (c)). -/
structure Timer where
  armed : Bool
  duration : Nat
  seenExpired : Bool
deriving DecidableEq, Repr

/-- The external actions (30_encoding R81). -/
inductive Action where
  | dirIn
  | dirOut
  | high
  | low
  | arm (d : Nat)
deriving DecidableEq, Repr

/-- ENQ's result (30_encoding R78). -/
inductive EnqResult where
  | accept
  | full
  | busy
deriving DecidableEq, Repr

/-- What a command returns to the host (30_encoding R78). -/
inductive Response where
  /-- RESET and POLL return nothing. -/
  | nothing
  /-- ENQ's result. -/
  | enqueued (r : EnqResult)
  /-- DRAIN's count and bytes, in index order. -/
  | drained (count : Nat) (bytes : List Byte)
  /-- The STATUS word. -/
  | statusWord (w : Word)
deriving DecidableEq, Repr

/-- The event labels, with what each records (60_exceptions R201). -/
inductive Event where
  | none
  | startInvalid
  | idleTimeout
  | stopMissing (discarded : Byte)
  | rxOverflow (dropped : Byte)
  | enqFull (rejected : Byte)
  | enqBusy (rejected : Byte)
  | commit (byte : Byte) (index : Nat)
  | txDone (count : Nat)
deriving DecidableEq, Repr

/-- What one command showed: its response, its actions in the order emitted, and at most one event
(00_scope R10, 30_encoding R78, R81, 60_exceptions R201). The field `obs` of State keeps the last command's (log 15). -/
structure Observation where
  response : Response
  actions : List Action
  event : Event
deriving DecidableEq, Repr

/-- A command that has shown nothing yet. -/
def Observation.silent : Observation := ⟨.nothing, [], .none⟩

/-- The buffer as (index, byte) pairs in one canonical form: see `Memory.wf`. -/
abbrev Memory := List Host.Cell

/-- The state of one BBSER: its parameters, its registers (10_state R21 to R27), its timer and pin (R30, R31), the
inputs not yet taken, and the observation of the last command. -/
structure State where
  /-- The configuration (10_state R36); no command writes it. -/
  cfg : Config
  /-- `mode`, 1 bit (10_state R21). -/
  mode : Mode
  /-- `state`, 4 bits, reserved codes included (10_state R22). -/
  state : BitVec 4
  /-- `buf` (10_state R23). -/
  buf : Memory
  /-- `len`, 8 bits (10_state R24). -/
  len : Byte
  /-- `bitc`, 4 bits (10_state R25). -/
  bitc : BitVec 4
  /-- `cur`, 8 bits: byte cursor while Sending, accumulator while Receiving (10_state R26). -/
  cur : Byte
  /-- `idle` (10_state R27). -/
  idle : Nat
  /-- The timer (10_state R30). -/
  timer : Timer
  /-- The pin (10_state R31). -/
  pin : Pin
  /-- The command words the host has issued and the block has not taken, oldest first (43_driver_and_host R170). -/
  commands : List Word
  /-- The timer's coming answers to `Timer.expired()`, one per read (40_timing R106, R107). -/
  expiries : List Bool
  /-- For each coming `Pin.read()`, the levels the other pins on the line drive then (60_exceptions R214). -/
  lines : List (List Level)
  /-- The model's own counter of free values taken. -/
  draws : Nat
  /-- What the last command showed. -/
  obs : Observation
deriving DecidableEq, Repr

/-- Which part of 10_state R28 a step met broken (60_exceptions R207). POLL raises each but the last (log 13). -/
inductive Broken where
  /-- INV2: `state` holds 0x5 to 0x7 or 0xC to 0xF. -/
  | reservedState
  /-- INV2: `state` holds a phase of the other engine. -/
  | stateIllegalForMode
  /-- INV3: `mode` = Sending with `len` = 0. -/
  | sendingEmpty
  /-- INV3: the byte cursor is not below `len`, so a read there is a buffer read at an index not below `len`
  (20_memory R55). -/
  | readPastLen
  /-- INV1: `len`, `bitc` or `idle` is out of its range. -/
  | counterOutOfRange
  /-- INV4 or INV5: the bit cursor, or the accumulator beside it, is not one the phase can have. -/
  | bitCursor
  /-- INV6: a full receive buffer outside RecvPause. -/
  | fullNotInPause
  /-- INV7: a gated state with a timer that was never armed. -/
  | neverArmed
  /-- An access to an index that is not below `C`, which 20_memory R50 says does not exist. Raised by DRAIN where
  `len > C`, and by ENQ where `C` = 0. -/
  | outsideBuffer
deriving DecidableEq, Repr

/-- The faults of 60_exceptions R207. -/
inductive Fault where
  /-- `InvariantBroken`: a step met a state that breaks 10_state R28. No state reached from reset raises it. Safe: the
  model stops, so no claim can be proved of what would follow. -/
  | invariantBroken (why : Broken)
deriving DecidableEq, Repr

/-- The refusals of 60_exceptions R207, and the one for an instruction that has no meaning yet. -/
inductive Refusal where
  /-- An instruction without a meaning. Raised only by an arm of `exec`; no arm does. Safe: nothing can be proved of
  it. -/
  | notModelled (mnemonic : String)
  /-- `IllegalCommand(w)`: a command word of no opcode row (30_encoding R77). Raised by `step`. Safe: no state changes
  and nothing is claimed of it. -/
  | illegalCommand (w : Word)
  /-- `ConfigInvalid`: the configuration fails `cfg_wf` (00_scope R8). Raised by `step`. Safe: no such block is
  built. -/
  | configInvalid
deriving DecidableEq, Repr

/-- The state at power-on, which is the state RESET leaves (10_state R34, 70_reset_and_hazards R230), for a block built
with configuration `c`. `pin.out`, the timer and the buffer bytes have no value in the spec here; theirs are
DESIGN CHOICES (log 9, 10, 11). -/
def State.powerOn (c : Config) : State where
  cfg := c
  mode := .receiving
  state := 0x0
  buf := []
  len := 0
  bitc := 0
  cur := 0
  idle := 0
  timer := ⟨false, 0, false⟩
  pin := ⟨.input, LOW⟩
  commands := []
  expiries := []
  lines := []
  draws := 0
  obs := .silent

/-- The machine right after reset (10_state R34), with the reference configuration (log 2). -/
def State.reset : State := State.powerOn Config.reference

end Sys2Proof.Machine
end

