-- ==== Sys2Proof/Machine/Ops.lean ====
section
/-! DEFINITION. The shared operations: sequencing of outcomes, the buffer, flush, the external actions, the observation,
the phase codes, the durations, and taking the next command. Every meaning is written over these. BBSER takes no
exception and returns from none (60_exceptions R200), so no such operation stands here. -/

namespace Sys2Proof.Machine

/-- What a step or a part of one answers. -/
abbrev Result (α : Type) := Host.Outcome α Fault Refusal

/-- Go on with `k` when `o` answers; a fault or a refusal of `o` ends the step (00_scope R10, `raise` and `refuse`). -/
def andThen {α β : Type} (o : Result α) (k : α → Result β) : Result β :=
  match o with
  | .next a => k a
  | .fault r => .fault r
  | .refused r => .refused r

/-! ### Durations (00_scope R7) -/

/-- `T_VALIDATE_US`: the start-validation window, independent of the bit period. -/
def tValidateUs : Nat := TV_US

/-- `T_BIT_US = 1000 * T_MS - COMP_US`: the inter-bit spacing. -/
def tBitUs (c : Config) : Nat := 1000 * c.tMs - COMP_US

/-- `cfg_timing_ok` of 00_scope R9: a named premise of delivery claims, not a refusal. -/
abbrev cfgTimingOk (c : Config) : Prop := tValidateUs < tBitUs c

/-! ### The buffer (20_memory R50) -/

/-- What an index that nothing has written reads as. The spec leaves the byte unspecified and no rule observes it
(20_memory R56, 93 I4). DESIGN CHOICE (log 11). -/
def unlistedByte : Byte := 0

/-- The canonical form: indices strictly rising, and no entry equal to what an unlisted index reads as. -/
abbrev Memory.wf (m : Memory) : Prop :=
  m.Pairwise (fun x y => x.1 < y.1) ∧ ∀ c ∈ m, c.2 ≠ unlistedByte

/-- `buf[i]`. -/
def Memory.read : Memory → Nat → Byte
  | [], _ => unlistedByte
  | (a, b) :: rest, i => if a = i then b else Memory.read rest i

/-- Put an entry before `rest`, unless its byte is what an unlisted index reads as. -/
def Memory.entry (i : Nat) (v : Byte) (rest : Memory) : Memory :=
  if v = unlistedByte then rest else (i, v) :: rest

/-- `buf[i] <- v`, in canonical form. -/
def Memory.write : Memory → Nat → Byte → Memory
  | [], i, v => Memory.entry i v []
  | (a, b) :: rest, i, v =>
    if i < a then Memory.entry i v ((a, b) :: rest)
    else if i = a then Memory.entry i v rest
    else (a, b) :: Memory.write rest i v

/-- `MemRead(i, 1)` (20_memory R50, R55): only the bytes below `len` are read, and only indices below `C` exist. -/
def memRead (s : State) (i : Nat) : Result Byte :=
  if i < s.len.toNat then
    if i < s.cfg.capacity then .next (s.buf.read i) else .fault (.invariantBroken .outsideBuffer)
  else .fault (.invariantBroken .readPastLen)

/-- `MemWrite(i, 1, v)` (20_memory R50): only indices below `C` exist. -/
def memWrite (s : State) (i : Nat) (v : Byte) : Result State :=
  if i < s.cfg.capacity then .next { s with buf := s.buf.write i v }
  else .fault (.invariantBroken .outsideBuffer)

/-- The `n` bytes from index `i` on, in index order (20_memory R50, DRAIN). -/
def memReadRange (s : State) : Nat → Nat → Result (List Byte)
  | _, 0 => .next []
  | i, n + 1 => andThen (memRead s i) fun b => andThen (memReadRange s (i + 1) n) fun bs => .next (b :: bs)

/-! ### flush, and the phase codes -/

/-- `flush()`: `len`, `bitc` and `cur` to 0 together, and nothing else (10_state R29). -/
def flush (s : State) : State := { s with len := 0, bitc := 0, cur := 0 }

/-- The code of a receive phase in `state` (10_state R22). -/
def RxPhase.code : RxPhase → BitVec 4
  | .recvScan => 0x0
  | .recvValidate => 0x1
  | .recvData => 0x2
  | .recvStop => 0x3
  | .recvPause => 0x4

/-- The code of a transmit phase in `state` (10_state R22). -/
def TxPhase.code : TxPhase → BitVec 4
  | .sendStart => 0x8
  | .sendData => 0x9
  | .sendStop => 0xA
  | .sendPause => 0xB

/-- The receive phase a code names, if it names one (10_state R22). -/
def rxPhaseOf (code : BitVec 4) : Option RxPhase :=
  if code = 0x0 then some .recvScan
  else if code = 0x1 then some .recvValidate
  else if code = 0x2 then some .recvData
  else if code = 0x3 then some .recvStop
  else if code = 0x4 then some .recvPause
  else none

/-- The transmit phase a code names, if it names one (10_state R22). -/
def txPhaseOf (code : BitVec 4) : Option TxPhase :=
  if code = 0x8 then some .sendStart
  else if code = 0x9 then some .sendData
  else if code = 0xA then some .sendStop
  else if code = 0xB then some .sendPause
  else none

/-- What is broken when `state` names no phase of the engine that `mode` selects (60_exceptions R207). -/
def brokenState (code : BitVec 4) : Broken :=
  if (rxPhaseOf code).isSome || (txPhaseOf code).isSome then .stateIllegalForMode else .reservedState

/-- `state <- p`, a receive phase. -/
def toRx (p : RxPhase) (s : State) : State := { s with state := p.code }

/-- `state <- p`, a transmit phase. -/
def toTx (p : TxPhase) (s : State) : State := { s with state := p.code }

/-! ### Bits of a byte (20_memory R53: least significant first) -/

/-- Bit `k` of `b` as a level: `(b >> k) & 1`, 1 for HIGH (30_encoding R71). -/
def bitLevel (b : Byte) (k : Nat) : Level := ((b >>> k) &&& 1) == 1

/-- `acc | (zext_8(v) << k)`: OR the sample `v` into bit `k` (42_receive R143). -/
def orSample (acc : Byte) (v : Level) (k : Nat) : Byte := acc ||| ((if v then 1#8 else 0#8) <<< k)

/-! ### External actions (30_encoding R81) -/

/-- What an action does to the pin (60_exceptions R213). -/
def Pin.after (p : Pin) : Action → Pin
  | .dirIn => { p with dir := .input }
  | .dirOut => { p with dir := .output }
  | .high => { p with out := HIGH }
  | .low => { p with out := LOW }
  | .arm _ => p

/-- The level a pin drives, if it drives the line (60_exceptions R213). -/
def Pin.drives (p : Pin) : Option Level :=
  match p.dir with
  | .output => some p.out
  | .input => none

/-- What an action does to the timer: `Timer.arm(d)` restarts it, so no expiry has been seen since
(40_timing R107 (a)). -/
def Timer.after (t : Timer) : Action → Timer
  | .dirIn => t
  | .dirOut => t
  | .high => t
  | .low => t
  | .arm d => ⟨true, d, false⟩

/-- Emit an action: it acts on the pin or the timer, and is appended to the command's actions (00_scope R10). -/
def perform (a : Action) (s : State) : State :=
  { s with
    pin := s.pin.after a
    timer := s.timer.after a
    obs := { s.obs with actions := s.obs.actions ++ [a] } }

/-! ### The observation -/

/-- A command begins: it has shown nothing yet (log 15). -/
def startCommand (s : State) : State := { s with obs := .silent }

/-- `emit ev` (00_scope R10). -/
def emitEvent (ev : Event) (s : State) : State := { s with obs := { s.obs with event := ev } }

/-- `return r` (00_scope R10). -/
def respond (r : Response) (s : State) : State := { s with obs := { s.obs with response := r } }

/-- ENQ's 2-bit result code; 3 is never returned (30_encoding R78). -/
def EnqResult.code : EnqResult → BitVec 2
  | .accept => 0
  | .full => 1
  | .busy => 2

/-- The event codes of 60_exceptions R201. -/
def Event.code : Event → Nat
  | .none => 0
  | .startInvalid => 1
  | .idleTimeout => 2
  | .stopMissing _ => 3
  | .rxOverflow _ => 4
  | .enqFull _ => 5
  | .enqBusy _ => 6
  | .commit _ _ => 7
  | .txDone _ => 8

/-! ### Taking the next command -/

/-- The next command word and the state that has taken it, if the host has issued one (log 1). -/
def takeCommand (s : State) : Option (Word × State) :=
  match s.commands with
  | [] => none
  | w :: rest => some (w, { s with commands := rest })

/-- `s` with the word `w` issued as the very next command (log 18). -/
def issueNext (w : Word) (s : State) : State := { s with commands := w :: s.commands }

end Sys2Proof.Machine
end

