-- ==== Sys2Proof/Machine/Flags.lean ====
section
/-! DEFINITION. The two conditions that follow `len`, and the STATUS word (10_state R35, R37). BBSER has no arithmetic
flag. -/

namespace Sys2Proof.Machine

/-- FULL: `len = C` (10_state R37). -/
def isFull (s : State) : Bool := s.len.toNat == s.cfg.capacity

/-- EMPTY: `len = 0` (10_state R37). -/
def isEmpty (s : State) : Bool := s.len == 0

/-- Spare capacity, `len < C`: the gate of the receive engine and of a store (43_driver_and_host R171, R172). -/
def hasRoom (s : State) : Bool := decide (s.len.toNat < s.cfg.capacity)

/-- `mode`'s encoding: 0 for Receiving and 1 for Sending (10_state R21). -/
def Mode.bit : Mode → BitVec 1
  | .receiving => 0
  | .sending => 1

/-- A condition as one bit. -/
def flagBit (b : Bool) : BitVec 1 := if b then 1 else 0

/-- The STATUS word (43_driver_and_host R174; the fields of 10_state R35, the reserved bit 7 reading 0). -/
def statusOf (s : State) : Word :=
  (s.len.setWidth 16 <<< 8) ||| ((flagBit (isEmpty s)).setWidth 16 <<< 6) |||
    ((flagBit (isFull s)).setWidth 16 <<< 5) ||| (s.mode.bit.setWidth 16 <<< 4) ||| s.state.setWidth 16

/-- Whether `state` is legal for `mode` (10_state R22). -/
def stateLegal (m : Mode) (code : BitVec 4) : Bool :=
  match m with
  | .receiving => (rxPhaseOf code).isSome
  | .sending => (txPhaseOf code).isSome

end Sys2Proof.Machine
end

