-- ==== Sys2Proof/Machine/Invariants.lean ====
section
/-! DEFINITION. The invariants of 10_state R28, and which of them a state breaks. A POLL that meets a state breaking one
faults (10_state R28, 60_exceptions R207, decision D35). -/

namespace Sys2Proof.Machine

/-- INV1 of 10_state R28: the counters are in their ranges. -/
abbrev CountersInRange (s : State) : Prop :=
  s.len.toNat ≤ s.cfg.capacity ∧ s.bitc.toNat ≤ 8 ∧ s.idle ≤ s.cfg.idleThreshold

/-- INV2 of 10_state R28: `state` is legal for `mode`. -/
abbrev StateLegalForMode (s : State) : Prop := stateLegal s.mode s.state = true

/-- INV3 of 10_state R28: while Sending there is a byte, and the byte cursor is at one. -/
abbrev SendingHasByte (s : State) : Prop :=
  s.mode = .sending → 1 ≤ s.len.toNat ∧ s.cur.toNat < s.len.toNat

/-- INV4 of 10_state R28: the bit cursor in each transmit phase. -/
abbrev TxBitCursor (s : State) : Prop :=
  (s.state = TxPhase.sendStart.code → s.bitc = 0 ∨ s.bitc = 8) ∧
  (s.state = TxPhase.sendData.code → s.bitc.toNat ≤ 7) ∧
  (s.state = TxPhase.sendStop.code → s.bitc = 8) ∧
  (s.state = TxPhase.sendPause.code → s.bitc = 8)

/-- INV5 of 10_state R28: the bit cursor and the accumulator while a byte is assembled. -/
abbrev RxBitCursor (s : State) : Prop :=
  (s.state = RxPhase.recvData.code → s.bitc.toNat ≤ 7 ∧ s.cur.toNat < 2 ^ s.bitc.toNat) ∧
  (s.state = RxPhase.recvStop.code → s.bitc = 8)

/-- INV6 of 10_state R28: a full receive buffer waits in RecvPause. -/
abbrev FullWaitsInPause (s : State) : Prop :=
  s.mode = .receiving → s.len.toNat = s.cfg.capacity → s.state = RxPhase.recvPause.code

/-- The gated states of 40_timing R104. -/
def isGated (code : BitVec 4) : Bool :=
  code == RxPhase.recvValidate.code || code == RxPhase.recvData.code || code == RxPhase.recvStop.code ||
  code == TxPhase.sendData.code || code == TxPhase.sendStop.code || code == TxPhase.sendPause.code

/-- INV7 of 10_state R28: the timer was armed before a gated state checks it. -/
abbrev GatedIsArmed (s : State) : Prop := isGated s.state = true → s.timer.armed = true

/-- INV1 to INV7 of 10_state R28. -/
abbrev SpecInvariants (s : State) : Prop :=
  CountersInRange s ∧ StateLegalForMode s ∧ SendingHasByte s ∧ TxBitCursor s ∧ RxBitCursor s ∧ FullWaitsInPause s ∧
  GatedIsArmed s

/-- The first invariant of 10_state R28 that a state breaks, if it breaks one. `mode` = Sending with `len` = 0 comes
first, as 43_driver_and_host R171 writes it; the order of the others and the names are the model's (log 13). -/
def brokenInvariant (s : State) : Option Broken :=
  if s.mode = .sending ∧ isEmpty s then some .sendingEmpty
  else if ¬StateLegalForMode s then some (brokenState s.state)
  else if ¬CountersInRange s then some .counterOutOfRange
  else if ¬SendingHasByte s then some .readPastLen
  else if ¬(TxBitCursor s ∧ RxBitCursor s) then some .bitCursor
  else if ¬FullWaitsInPause s then some .fullNotInPause
  else if ¬GatedIsArmed s then some .neverArmed
  else none

end Sys2Proof.Machine
end

