-- ==== Sys2Proof/Machine/Operands.lean ====
section
/-! DEFINITION. The inputs a POLL phase reads, `Timer.expired()` and `Pin.read()` (00_scope R5, 30_encoding R76), and the
gate that waits for the timer. ENQ's byte, the one operand of a command word, is taken as it stands by the decoder. -/

namespace Sys2Proof.Machine

/-! ### `Timer.expired()` (40_timing R106, R107) -/

/-- The environment's next answer for the timer: the next one listed, else a free value (log 4). -/
def expiryDraw (s : State) : Bool :=
  match s.expiries with
  | e :: _ => e
  | [] => Config.freeExpiry s.draws

/-- `Timer.expired()`: the environment's answer, but true once a sample since the last arm was true
(40_timing R107 (c)). -/
def timerExpired (s : State) : Bool := expiryDraw s || s.timer.seenExpired

/-- The state after `Timer.expired()`: one answer is taken, and a true one is remembered until the next arm. No register
of the block changes (20_memory R58). -/
def afterExpiry (s : State) : State :=
  { s with
    expiries := s.expiries.tail
    draws := if s.expiries.isEmpty then s.draws + 1 else s.draws
    timer := { s.timer with seenExpired := timerExpired s } }

/-- A gated phase (40_timing R104, R106): read the timer once, first; on false `skip`, on true act. -/
def gated (act : State → Result State) (s : State) : Result State :=
  if timerExpired s then act (afterExpiry s) else .next (afterExpiry s)

/-- A phase's expiry test taken in the POLL that armed the timer, after the arm: false when the armed duration is
positive (40_timing R107 (b)), and no answer of the environment is taken. A zero duration, which no well-formed
configuration arms, is an ordinary test. -/
def gatedInArmingPoll (act : State → Result State) (s : State) : Result State :=
  if 0 < s.timer.duration then .next s else gated act s

/-! ### `Pin.read()` (60_exceptions R213, R214) -/

/-- The level of a line that `drivers` drive, where 60_exceptions R214 fixes it: HIGH with no driver, the level of the
one driver, and nothing fixed with two or more. -/
def lineLevel : List Level → Option Level
  | [] => some HIGH
  | [l] => some l
  | _ :: _ :: _ => none

/-- The levels the other pins drive at the next read; none where State lists none (log 5). -/
def otherDrivers (s : State) : List Level := s.lines.headD []

/-- What the spec fixes of the next `Pin.read()`: the line level with the own pin listening, and nothing while the pin
itself drives (60_exceptions R213). -/
def readFixed (s : State) : Option Level :=
  match s.pin.dir with
  | .input => lineLevel (otherDrivers s)
  | .output => none

/-- `Pin.read()`: the fixed level, else a free value (log 6). -/
def pinLevel (s : State) : Level := (readFixed s).getD (Config.freeLevel s.draws)

/-- The state after `Pin.read()`: one line sample is taken. No register of the block changes (20_memory R58). -/
def afterPinRead (s : State) : State :=
  { s with
    lines := s.lines.tail
    draws := if (readFixed s).isSome then s.draws else s.draws + 1 }

end Sys2Proof.Machine
end

