-- ==== Sys2Proof/Machine/Receive.lean ====
section
/-! DEFINITION. The receive engine: the five phases POLL runs while Receiving with spare capacity
(42_receive R140 to R145). -/

namespace Sys2Proof.Machine

/-- The byte assembled from data samples `s_0, s_1, …`: the first of the list in bit `k`, the next in
bit `k + 1`, and so on (30_encoding R72). -/
def assembleFrom : Nat → List Level → Byte
  | _, [] => 0
  | k, v :: vs => orSample (assembleFrom (k + 1) vs) v k

/-- RecvScan (42_receive R141), ungated: a LOW sample is a candidate start, a HIGH sample counts as idle, and more than
IDLE_THRESHOLD of them in a row flush. -/
def recvScan (s : State) : State :=
  let v := pinLevel s
  let s := afterPinRead s
  if v = LOW then
    toRx .recvValidate (perform (.arm tValidateUs) { s with idle := 0 })
  else if s.cfg.idleThreshold < s.idle + 1 then
    emitEvent .idleTimeout { flush s with idle := 0 }
  else { s with idle := s.idle + 1 }

/-- RecvValidate after a true expiry (42_receive R142): LOW confirms the start condition, HIGH was noise. -/
def recvValidateEnd (s : State) : State :=
  let v := pinLevel s
  let s := afterPinRead s
  if v = LOW then
    toRx .recvData (perform (.arm (tBitUs s.cfg)) { s with bitc := 0, cur := 0 })
  else emitEvent .startInvalid (toRx .recvScan (flush s))

/-- RecvValidate (42_receive R142), gated. -/
def recvValidate (s : State) : Result State := gated (fun s => .next (recvValidateEnd s)) s

/-- RecvData after a true expiry (42_receive R143): re-arm, sample, OR the sample into bit `bitc`, advance. -/
def recvDataBit (s : State) : State :=
  let s := perform (.arm (tBitUs s.cfg)) s
  let v := pinLevel s
  let s := afterPinRead s
  let s := { s with cur := orSample s.cur v s.bitc.toNat, bitc := s.bitc + 1 }
  if s.bitc = 8 then toRx .recvStop s else s

/-- RecvData (42_receive R143), gated. -/
def recvData (s : State) : Result State := gated (fun s => .next (recvDataBit s)) s

/-- RecvStop after a true expiry (42_receive R144): HIGH commits the byte if there is room, LOW discards it; then
RecvPause, unconditionally. -/
def recvStopEnd (s : State) : Result State :=
  let v := pinLevel s
  let s := afterPinRead s
  if v = HIGH then
    if hasRoom s then
      andThen (memWrite s s.len.toNat s.cur) fun s =>
        .next (toRx .recvPause (emitEvent (.commit s.cur s.len.toNat) { s with len := s.len + 1 }))
    else .next (toRx .recvPause (emitEvent (.rxOverflow s.cur) s))
  else .next (toRx .recvPause (emitEvent (.stopMissing s.cur) s))

/-- RecvStop (42_receive R144), gated. -/
def recvStop (s : State) : Result State := gated recvStopEnd s

/-- RecvPause (42_receive R145), ungated: back to RecvScan, reading no input. -/
def recvPause (s : State) : State := toRx .recvScan s

/-- `RxStep()` (42_receive R140): the one phase `state` names. -/
def rxStep (s : State) : Result State :=
  match rxPhaseOf s.state with
  | some .recvScan => .next (recvScan s)
  | some .recvValidate => recvValidate s
  | some .recvData => recvData s
  | some .recvStop => recvStop s
  | some .recvPause => .next (recvPause s)
  | none => .fault (.invariantBroken (brokenState s.state))

end Sys2Proof.Machine
end

