-- ==== Sys2Proof/Machine/Transmit.lean ====
section
/-! DEFINITION. The transmit engine: the four phases POLL runs while Sending (41_transmit R120 to R124). -/

namespace Sys2Proof.Machine

/-- The frame of a byte, one level per bit-time 0 to 9: LOW, the data bits least significant first, HIGH
(30_encoding R70, R71). -/
def frameOf (b : Byte) : List Level := LOW :: ((List.range 8).map (bitLevel b) ++ [HIGH])

/-- SendData after a true expiry (41_transmit R122): re-arm, drive bit `bitc` of `buf[cur]`, advance. -/
def sendDataBit (s : State) : Result State :=
  let s := perform (.arm (tBitUs s.cfg)) s
  andThen (memRead s s.cur.toNat) fun b =>
    let s := perform (if bitLevel b s.bitc.toNat then .high else .low) s
    let s := { s with bitc := s.bitc + 1 }
    .next (if s.bitc = 8 then toTx .sendStop s else s)

/-- SendData (41_transmit R122), gated. -/
def sendData (s : State) : Result State := gated sendDataBit s

/-- SendStart (41_transmit R121), ungated: the pin turns to output on the first byte, the start bit is driven, the timer
armed; then SendData's expiry test runs in the same POLL. -/
def sendStart (s : State) : Result State :=
  let s := if s.cur = 0 then perform .dirOut s else s
  let s := perform .low s
  let s := perform (.arm (tBitUs s.cfg)) s
  gatedInArmingPoll sendDataBit (toTx .sendData { s with bitc := 0 })

/-- SendStop after a true expiry (41_transmit R123): drive the stop bit, move, arm. -/
def sendStopBit (s : State) : State :=
  perform (.arm (tBitUs s.cfg)) (toTx .sendPause (perform .high s))

/-- SendStop (41_transmit R123), gated. -/
def sendStop (s : State) : Result State := gated (fun s => .next (sendStopBit s)) s

/-- SendPause after a true expiry (41_transmit R124): the next byte, or the end of the transmission. The comparison is
made on natural numbers, so it is total (log 17). -/
def sendPauseEnd (s : State) : State :=
  if s.len.toNat ≤ s.cur.toNat + 1 then
    let count := s.len.toNat
    let s := perform .dirIn (flush { s with mode := .receiving })
    emitEvent (.txDone count) { toRx .recvScan s with idle := 0 }
  else toTx .sendStart { s with cur := s.cur + 1 }

/-- SendPause (41_transmit R124), gated. -/
def sendPause (s : State) : Result State := gated (fun s => .next (sendPauseEnd s)) s

/-- `TxStep()` (41_transmit R120): the one phase `state` names. -/
def txStep (s : State) : Result State :=
  match txPhaseOf s.state with
  | some .sendStart => sendStart s
  | some .sendData => sendData s
  | some .sendStop => sendStop s
  | some .sendPause => sendPause s
  | none => .fault (.invariantBroken (brokenState s.state))

end Sys2Proof.Machine
end

