-- ==== Sys2Proof/Machine/Commands.lean ====
section
/-! DEFINITION. The meanings of the five host commands (43_driver_and_host R170 to R175). -/

namespace Sys2Proof.Machine

/-- RESET (43_driver_and_host R175): the registers to their reset values, the pin to input. The buffer bytes, `pin_out`
and the timer are not touched. -/
def execReset (s : State) : Result State :=
  let s := flush { startCommand s with mode := .receiving }
  .next (perform .dirIn { toRx .recvScan s with idle := 0 })

/-- POLL (43_driver_and_host R171): one driver-task invocation, at most one phase of the engine `mode` selects. A state
that breaks an invariant of 10_state R28, Sending with `len` = 0 among them, faults. -/
def execPoll (s : State) : Result State :=
  let s := startCommand s
  match brokenInvariant s with
  | some why => .fault (.invariantBroken why)
  | none =>
    match s.mode with
    | .sending => txStep s
    | .receiving => if hasRoom s then rxStep s else .next s

/-- ENQ b (43_driver_and_host R172): append while Sending, start sending from an empty RecvScan, else FULL or BUSY. -/
def execEnq (b : Byte) (s : State) : Result State :=
  let s := startCommand s
  match s.mode with
  | .sending =>
    if hasRoom s then
      andThen (memWrite s s.len.toNat b) fun s => .next (respond (.enqueued .accept) { s with len := s.len + 1 })
    else .next (respond (.enqueued .full) (emitEvent (.enqFull b) s))
  | .receiving =>
    if s.state = RxPhase.recvScan.code ∧ isEmpty s then
      andThen (memWrite (flush s) 0 b) fun s =>
        .next (respond (.enqueued .accept) (toTx .sendStart { s with len := 1, mode := .sending }))
    else .next (respond (.enqueued .busy) (emitEvent (.enqBusy b) s))

/-- DRAIN (43_driver_and_host R173): while Receiving, return the valid bytes and set `len` to 0, keeping the cursors;
while Sending, return nothing and change nothing. -/
def execDrain (s : State) : Result State :=
  let s := startCommand s
  match s.mode with
  | .sending => .next (respond (.drained 0 []) s)
  | .receiving =>
    andThen (memReadRange s 0 s.len.toNat) fun out =>
      .next (respond (.drained out.length out) { s with len := 0 })

/-- STATUS (43_driver_and_host R174): return the STATUS word. -/
def execStatus (s : State) : Result State :=
  let s := startCommand s
  .next (respond (.statusWord (statusOf s)) s)

end Sys2Proof.Machine
end

