-- ==== Sys2Proof/Machine/Dispatch.lean ====
section
/-! DEFINITION. One arm per instruction, each a direct call of its meaning. -/

namespace Sys2Proof.Machine

def exec (i : Instr) (s : State) : Host.Outcome State Fault Refusal :=
  match i with
  | .reset => Sys2Proof.Machine.execReset s
  | .poll => Sys2Proof.Machine.execPoll s
  | .enq b => Sys2Proof.Machine.execEnq b s
  | .drain => Sys2Proof.Machine.execDrain s
  | .status => Sys2Proof.Machine.execStatus s

end Sys2Proof.Machine
end

