-- ==== Sys2Proof/Machine/Step.lean ====
section
/-! DEFINITION. One step: take the host's next command, decode it and run it (43_driver_and_host R170). -/

namespace Sys2Proof.Machine

/-- One step. A configuration that is not well formed is refused (00_scope R8). With no command pending the block does
nothing (60_exceptions R217). Otherwise the oldest command is taken, decoded and run, or refused as illegal
(30_encoding R77). -/
def step (s : State) : Host.Outcome State Fault Refusal :=
  if s.cfg.wf then
    match takeCommand s with
    | none => .next s
    | some (w, s') =>
      match decode w with
      | .ok i => exec i s'
      | .error _ => .refused (.illegalCommand w)
  else .refused .configInvalid

/-- `s` with the instruction whose low `nbits` bits are `w` issued as the very next command (log 18). -/
def State.withFetchWord (s : State) (nbits w : Nat) : State :=
  issueNext (BitVec.ofNat 16 (w % 2 ^ nbits)) s

end Sys2Proof.Machine
end

