-- ==== Sys2Proof/Machine/Assembler.lean ====
section
/-! DEFINITION. The assembler of 30_encoding R80: the text of one line, its two pseudo-instructions, and the words they
stand for. What 30_encoding R80 leaves open of a line's text is the model's choice (log 24). -/

namespace Sys2Proof.Machine

/-- One line of a listing, comment removed (30_encoding R80). Operands are the numbers as written. -/
inductive AsmLine where
  | blank
  | reset
  | poll
  | enq (b : Nat)
  | drain
  | status
  /-- `ENQS b1, ..., bn` -/
  | enqs (bs : List Nat)
  /-- `POLLN n` -/
  | polln (n : Nat)
deriving DecidableEq, Repr

/-- The instruction `ENQ b`. -/
def enqOf (b : Nat) : Instr := .enq (BitVec.ofNat 8 b)

/-- The instructions a line expands to (30_encoding R80). -/
def AsmLine.expand : AsmLine → List Instr
  | .blank => []
  | .reset => [.reset]
  | .poll => [.poll]
  | .enq b => [enqOf b]
  | .drain => [.drain]
  | .status => [.status]
  | .enqs bs => bs.map enqOf
  | .polln n => List.replicate n .poll

/-- An assembler refuses an ENQ operand outside 0 to 255, and `POLLN 0` (30_encoding R80). `ENQS` takes one byte or more,
as `b1, ..., bn` reads (log 24). -/
def AsmLine.wf : AsmLine → Bool
  | .blank => true
  | .reset => true
  | .poll => true
  | .enq b => decide (operandInRange b)
  | .drain => true
  | .status => true
  | .enqs bs => !bs.isEmpty && bs.all (fun b => decide (operandInRange b))
  | .polln n => decide (1 ≤ n)

/-- The words of a line, or none where the assembler refuses it (30_encoding R80). -/
def assembleLine (l : AsmLine) : Option (List Word) :=
  if l.wf then some (l.expand.map encode) else none

/-! ### The text of a line -/

/-- A digit's value in the given base, if the character is one of its digits. -/
def digitValue (base : Nat) (c : Char) : Option Nat :=
  let n := c.toNat
  let v := if 48 ≤ n ∧ n ≤ 57 then n - 48
    else if 65 ≤ n ∧ n ≤ 70 then n - 55
    else if 97 ≤ n ∧ n ≤ 102 then n - 87
    else base
  if v < base then some v else none

/-- The number whose digits are read, most significant first, after the value read so far. -/
def digitsValue (base : Nat) : Nat → List Char → Option Nat
  | acc, [] => some acc
  | acc, c :: cs =>
    match digitValue base c with
    | some d => digitsValue base (acc * base + d) cs
    | none => none

/-- A literal: decimal, or hexadecimal after `0x` (30_encoding R80). -/
def literal : List Char → Option Nat
  | [] => none
  | '0' :: 'x' :: c :: cs => digitsValue 16 0 (c :: cs)
  | c :: cs => digitsValue 10 0 (c :: cs)

/-- Blanks between the words of a line. -/
def isBlank (c : Char) : Bool := c == ' ' || c == '\t'

/-- A text without its outer blanks. -/
def trim (cs : List Char) : List Char := ((cs.dropWhile isBlank).reverse.dropWhile isBlank).reverse

/-- The parts of a text between commas. -/
def commaParts : List Char → List (List Char)
  | [] => [[]]
  | c :: cs =>
    match commaParts cs with
    | [] => [[c]]
    | p :: ps => if c = ',' then [] :: p :: ps else (c :: p) :: ps

/-- The literals of an operand list, `b1, b2, ..., bn`. -/
def literals : List (List Char) → Option (List Nat)
  | [] => some []
  | p :: ps =>
    match literal (trim p), literals ps with
    | some n, some ns => some (n :: ns)
    | _, _ => none

/-- The line a mnemonic and its operands make: as many operands as the syntax of 30_encoding R80 gives it. -/
def lineOf (mnemonic : List Char) (operands : List Nat) : Option AsmLine :=
  if mnemonic = ['R', 'E', 'S', 'E', 'T'] then (if operands = [] then some .reset else none)
  else if mnemonic = ['P', 'O', 'L', 'L'] then (if operands = [] then some .poll else none)
  else if mnemonic = ['D', 'R', 'A', 'I', 'N'] then (if operands = [] then some .drain else none)
  else if mnemonic = ['S', 'T', 'A', 'T', 'U', 'S'] then (if operands = [] then some .status else none)
  else if mnemonic = ['E', 'N', 'Q'] then
    match operands with
    | [b] => some (.enq b)
    | _ => none
  else if mnemonic = ['E', 'N', 'Q', 'S'] then some (.enqs operands)
  else if mnemonic = ['P', 'O', 'L', 'L', 'N'] then
    match operands with
    | [n] => some (.polln n)
    | _ => none
  else none

/-- Not the opening brace (character 123), which starts the annotation of a POLL. -/
def beforeNote (c : Char) : Bool := c.toNat != 123

/-- An annotation of inputs stands on POLL and POLLN lines, as in 95_test_vectors P1, and ends with the closing brace
(character 125). It is not part of the word (30_encoding R80). DESIGN CHOICE (log 24): what stands in it is not read,
and on any other line it is refused. -/
def noteAllowed (note : List Char) (l : AsmLine) : Bool :=
  note.isEmpty || (note.getLast?.any (fun c => c.toNat == 125) &&
    match l with
    | .poll => true
    | .polln _ => true
    | .blank => false
    | .reset => false
    | .enq _ => false
    | .drain => false
    | .status => false
    | .enqs _ => false)

/-- The line that a text without comment and annotation stands for. DESIGN CHOICE (log 24): a line with no command, empty or
with a comment only, is accepted and stands for no word, and a text that is no line of 30_encoding R80's syntax is refused. -/
def parseCode (code : List Char) : Option AsmLine :=
  if code = [] then some .blank
  else
    let rest := trim (code.dropWhile (fun c => !isBlank c))
    match if rest = [] then some [] else literals (commaParts rest) with
    | some operands => lineOf (code.takeWhile (fun c => !isBlank c)) operands
    | none => none

/-- One line of text: `;` starts a comment, the mnemonic comes first, the operands follow, and a POLL may be annotated with
its inputs (30_encoding R80). -/
def parseLine (text : List Char) : Option AsmLine :=
  let code := trim (text.takeWhile (fun c => c != ';'))
  (parseCode (trim (code.takeWhile beforeNote))).filter (noteAllowed (code.dropWhile beforeNote))

/-- The words of a listing, one command per line, or none where a line is refused (30_encoding R80, log 24). -/
def assembleText : List (List Char) → Option (List Word)
  | [] => some []
  | line :: lines =>
    match (parseLine line).bind assembleLine, assembleText lines with
    | some ws, some rest => some (ws ++ rest)
    | _, _ => none

end Sys2Proof.Machine
end

