-- ==== Sys2Proof/Machine/RefEnv.lean ====
section
/-! DEFINITION. The timed reference environment `RefEnv` of 60_exceptions R216: several blocks on one line, with elapsed
time. It is no rule of the block and nothing of the block depends on it (60_exceptions R216); it gives 60_exceptions R214
and R215 their meaning for more than one block. -/

namespace Sys2Proof.Machine

/-- One block in the environment: its own state (60_exceptions R215: blocks share none), the deadline its timer's last
arm set, and its poll period `P`. -/
structure Member where
  state : State
  deadline : Nat
  period : Nat
deriving DecidableEq, Repr

/-- Whether a scheduled command is issued at the start of its microsecond or, as a DRAIN may be, at its end
(60_exceptions R216). -/
inductive Slot where
  | start
  | finish
deriving DecidableEq, Repr

/-- A host command scheduled for a time, a slot and a block. -/
structure Scheduled where
  time : Nat
  slot : Slot
  member : Nat
  word : Word
deriving DecidableEq, Repr

/-- The environment: the time in microseconds, the blocks in their fixed poll order, the host's schedule, and one counter
of the free values taken by all of them, so that two reads of a contended line never share one (60_exceptions R214,
70_reset_and_hazards R241). DESIGN CHOICE (log 25). -/
structure RefEnv where
  time : Nat
  members : List Member
  schedule : List Scheduled
  draws : Nat
deriving DecidableEq, Repr

/-- The levels the blocks drive onto the line (60_exceptions R214). -/
def driversOf (ms : List Member) : List Level := ms.filterMap (fun m => m.state.pin.drives)

/-- The level of the line, where 60_exceptions R214 fixes it. -/
def RefEnv.line (e : RefEnv) : Option Level := lineLevel (driversOf e.members)

/-- The deadline after a command at time `t`: `t + d` if it armed the timer with `d` (60_exceptions R216). -/
def deadlineAfter (t old : Nat) : List Action → Nat
  | [] => old
  | .arm d :: rest => deadlineAfter t (t + d) rest
  | _ :: rest => deadlineAfter t old rest

/-- The state that a block runs the word `w` from at time `t`: the timer answers `t ≥ deadline`, the line is what the
other pins drive at that moment (60_exceptions R216), and its next free value is the environment's, `draws` (log 25). -/
def presented (t draws : Nat) (others : List Level) (w : Word) (m : Member) : State :=
  { m.state with commands := [w], expiries := [decide (m.deadline ≤ t)], lines := [others], draws := draws }

/-- The block after a command at time `t`: the inputs it did not read are dropped, and an arm sets its deadline. -/
def settled (t : Nat) (m : Member) (s : State) : Member :=
  { m with
    state := { s with commands := [], expiries := [], lines := [] }
    deadline := deadlineAfter t m.deadline s.obs.actions }

/-- Issue the word `w` to block `k`. -/
def RefEnv.issue (k : Nat) (w : Word) (e : RefEnv) : Result RefEnv :=
  match e.members[k]? with
  | none => .next e
  | some m =>
    andThen (step (presented e.time e.draws (driversOf (e.members.eraseIdx k)) w m)) fun s =>
      .next { e with members := e.members.set k (settled e.time m s), draws := s.draws }

/-- Issue words to blocks, in order. -/
def RefEnv.issueAll : List (Nat × Word) → RefEnv → Result RefEnv
  | [], e => .next e
  | (k, w) :: rest, e => andThen (e.issue k w) (RefEnv.issueAll rest)

/-- The commands scheduled for this microsecond in a slot. -/
def RefEnv.due (e : RefEnv) (slot : Slot) : List (Nat × Word) :=
  (e.schedule.filter (fun c => decide (c.time = e.time ∧ c.slot = slot))).map (fun c => (c.member, c.word))

/-- The POLLs of this microsecond: each block whose period divides the time, in the fixed order. -/
def RefEnv.polls (e : RefEnv) : List (Nat × Word) :=
  (e.members.zipIdx.filter (fun m => decide (e.time % m.1.period = 0))).map (fun m => (m.2, encode .poll))

/-- One microsecond: the host's commands, then the POLLs, then the commands scheduled for its end
(60_exceptions R216). -/
def RefEnv.tick (e : RefEnv) : Result RefEnv :=
  andThen (RefEnv.issueAll (e.due .start ++ e.polls ++ e.due .finish) e) fun e =>
    .next { e with time := e.time + 1 }

/-- `n` microseconds. -/
def RefEnv.ticks : Nat → RefEnv → Result RefEnv
  | 0, e => .next e
  | n + 1, e => andThen e.tick (RefEnv.ticks n)

end Sys2Proof.Machine
end

