-- ==== Sys2Proof/Safety.lean ====
section
/-! DEFINITION. What a safe state and a safe run are, in the terms the statements use: the invariants of 10_state R28,
the pin's direction (30_encoding R73), the timer's duration (40_timing R101), and the buffer's form. -/

namespace Sys2Proof.Machine

/-- The pin's direction: In while Receiving, and Out while Sending from the first SendStart on (30_encoding R73). -/
abbrev PinFollowsMode (s : State) : Prop :=
  (s.mode = .receiving → s.pin.dir = .input) ∧
  (s.mode = .sending → ¬(s.state = TxPhase.sendStart.code ∧ s.cur = 0) → s.pin.dir = .output)

/-- An armed timer holds one of the two durations (40_timing R101). -/
abbrev ArmedDuration (s : State) : Prop :=
  s.timer.armed = true → s.timer.duration = tValidateUs ∨ s.timer.duration = tBitUs s.cfg

/-- The buffer is in canonical form and holds no index outside 0 to C-1 (20_memory R50). -/
abbrev BufferInBounds (s : State) : Prop := s.buf.wf ∧ ∀ c ∈ s.buf, c.1 < s.cfg.capacity

/-- Every invariant of 10_state R28, with the pin, timer and buffer rules beside it. -/
abbrev Inv (s : State) : Prop := SpecInvariants s ∧ PinFollowsMode s ∧ ArmedDuration s ∧ BufferInBounds s

/-- A power-on state of a block built with `c`, before a host that will issue `commands` in an environment that will
answer `expiries` and drive `lines`. -/
def booted (c : Config) (commands : List Word) (expiries : List Bool) (lines : List (List Level)) : State :=
  { State.powerOn c with commands := commands, expiries := expiries, lines := lines }

/-- `k` steps, up to the first that faults or refuses. It is the host's own `run` of this core: see
`run_eq_core_run`. -/
def run : Nat → State → Result State
  | 0, s => .next s
  | k + 1, s => andThen (step s) (run k)

/-- The state after each of `k` steps, oldest first; it ends early where a step does not answer a next state. -/
def statesOf : Nat → State → List State
  | 0, _ => []
  | k + 1, s =>
    match step s with
    | .next s' => s' :: statesOf k s'
    | .fault _ => []
    | .refused _ => []

/-- What the pin drives onto the line after each of `k` steps: a level while its direction is Out, else nothing
(60_exceptions R213). -/
def drivenLevels (k : Nat) (s : State) : List (Option Level) := (statesOf k s).map (fun s => s.pin.drives)

/-- The index a command stores a byte at, if it stores one (20_memory R50): ENQ at `len`, or at 0 when it starts a
transmission; POLL at `len` when RecvStop commits. -/
def storeIndex (i : Instr) (s : State) : Option Nat :=
  match i with
  | .reset => none
  | .poll =>
    if s.mode = .receiving ∧ hasRoom s ∧ s.state = RxPhase.recvStop.code ∧ timerExpired s ∧
        pinLevel (afterExpiry s) = HIGH then some s.len.toNat
    else none
  | .enq _ =>
    match s.mode with
    | .sending => if hasRoom s then some s.len.toNat else none
    | .receiving => if s.state = RxPhase.recvScan.code ∧ isEmpty s then some 0 else none
  | .drain => none
  | .status => none

/-- The byte a command stores where it stores one: ENQ's operand, or the accumulator at a commit (20_memory R50). -/
def storedByte (i : Instr) (s : State) : Byte :=
  match i with
  | .reset => 0
  | .poll => s.cur
  | .enq b => b
  | .drain => 0
  | .status => 0

/-- Two states that the host and the line cannot tell apart: equal but for the stale bytes of `buf`, those at `len` and
above (20_memory R56). -/
def SameButStale (s t : State) : Prop :=
  { s with buf := t.buf } = t ∧ ∀ i, i < s.len.toNat → s.buf.read i = t.buf.read i

end Sys2Proof.Machine
end

