-- ==== Sys2Proof/Certificates/Slice0/Obligations.lean ====
section
/-! DEFINITION. The statements about the model, each from a rule of spec/. `timerExpired`, `afterExpiry`, `pinLevel` and
`afterPinRead` are the inputs a POLL reads; a statement holds whatever they answer. The premise `s.cfg.wf` is 00_scope R8: a
step refuses every other configuration, and it has no meaning. -/

open Sys2Proof Sys2Proof.Machine

/-! ### Encoding -/

/-- 30_encoding R75, R77, and the decode table of 95_test_vectors L2-ENC: words written out from the encoding. -/
def Obligations.OpcodeMapWordsDecode : Prop :=
  decode 0x0000#16 = .ok .reset ∧ decode 0x1000#16 = .ok .poll ∧ decode 0x2000#16 = .ok (.enq 0x00) ∧
  decode 0x2041#16 = .ok (.enq 0x41) ∧ decode 0x20FF#16 = .ok (.enq 0xFF) ∧ decode 0x3000#16 = .ok .drain ∧
  decode 0x4000#16 = .ok .status ∧
  decode 0x0001#16 = .error .imm8NotZero ∧ decode 0x1001#16 = .error .imm8NotZero ∧
  decode 0x2141#16 = .error .rsvNotZero ∧ decode 0x3800#16 = .error .rsvNotZero ∧
  decode 0x4010#16 = .error .imm8NotZero ∧ decode 0x5000#16 = .error .opUnassigned ∧
  decode 0xF000#16 = .error .opUnassigned ∧ decode 0xFFFF#16 = .error .opUnassigned

/-- 30_encoding R75 to R79: a word decodes to an instruction exactly when it is that instruction's word. -/
def Obligations.DecodeExactlyInvertsEncode : Prop :=
  ∀ (w : Word) (i : Instr), decode w = .ok i ↔ w = encode i

/-- 30_encoding R75: a word decodes to the row it matches, and it matches at most one. -/
def Obligations.WordDecodesToItsOneRow : Prop :=
  ∀ (w : Word) (r : Row), r ∈ opcodeRows → w &&& r.mask = r.pattern →
    decode w = .ok (r.build (imm8Field w)) ∧
    ∀ r' ∈ opcodeRows, w &&& r'.mask = r'.pattern → r'.mnemonic = r.mnemonic

/-- 30_encoding R77: the illegal words are exactly those with OP in 0x5 to 0xF, RSV ≠ 0, or IMM8 ≠ 0 on a word other
than ENQ, and a step refuses each by name. -/
def Obligations.IllegalWordsAreRefused : Prop :=
  ∀ w : Word,
    ((∀ i, decode w ≠ .ok i) ↔
      (5 ≤ (opField w).toNat ∨ rsvField w ≠ 0 ∨ (opField w ≠ 2 ∧ imm8Field w ≠ 0))) ∧
    ∀ (s : State) (rest : List Word), s.cfg.wf → s.commands = w :: rest →
      (step s = .refused (.illegalCommand w) ↔ ∀ i, decode w ≠ .ok i)

/-- 30_encoding R80: the words each line of the assembler's syntax stands for, and the lines it refuses. -/
def Obligations.AssemblerExpandsLines : Prop :=
  assembleLine .reset = some [0x0000#16] ∧ assembleLine .poll = some [0x1000#16] ∧
  assembleLine .drain = some [0x3000#16] ∧ assembleLine .status = some [0x4000#16] ∧
  (∀ b : Nat, b ≤ 255 → assembleLine (.enq b) = some [0x2000#16 ||| BitVec.ofNat 16 b]) ∧
  (∀ b : Nat, 255 < b → assembleLine (.enq b) = none) ∧
  (∀ bs : List Nat, bs ≠ [] → (∀ b ∈ bs, b ≤ 255) →
    assembleLine (.enqs bs) = some (bs.map (fun b => 0x2000#16 ||| BitVec.ofNat 16 b))) ∧
  (∀ bs : List Nat, (∃ b ∈ bs, 255 < b) → assembleLine (.enqs bs) = none) ∧
  (∀ n : Nat, 1 ≤ n → assembleLine (.polln n) = some (List.replicate n 0x1000#16)) ∧
  assembleLine (.polln 0) = none

/-- 10_state R21, R22, 30_encoding R78 and 60_exceptions R201: the codes of the modes, the phases, ENQ's results and the
events. -/
def Obligations.CodesOfTheTables : Prop :=
  Mode.bit .receiving = 0 ∧ Mode.bit .sending = 1 ∧
  RxPhase.code .recvScan = 0x0 ∧ RxPhase.code .recvValidate = 0x1 ∧ RxPhase.code .recvData = 0x2 ∧
  RxPhase.code .recvStop = 0x3 ∧ RxPhase.code .recvPause = 0x4 ∧
  TxPhase.code .sendStart = 0x8 ∧ TxPhase.code .sendData = 0x9 ∧ TxPhase.code .sendStop = 0xA ∧
  TxPhase.code .sendPause = 0xB ∧
  (∀ c : BitVec 4, stateLegal .receiving c = true ↔ c.toNat ≤ 4) ∧
  (∀ c : BitVec 4, stateLegal .sending c = true ↔ 8 ≤ c.toNat ∧ c.toNat ≤ 11) ∧
  EnqResult.code .accept = 0 ∧ EnqResult.code .full = 1 ∧ EnqResult.code .busy = 2 ∧
  (∀ b n, Event.code .none = 0 ∧ Event.code .startInvalid = 1 ∧ Event.code .idleTimeout = 2 ∧
    Event.code (.stopMissing b) = 3 ∧ Event.code (.rxOverflow b) = 4 ∧ Event.code (.enqFull b) = 5 ∧
    Event.code (.enqBusy b) = 6 ∧ Event.code (.commit b n) = 7 ∧ Event.code (.txDone n) = 8)

/-! ### The step, the configuration, reset -/

/-- 43_driver_and_host R170: with a well-formed configuration a step takes the oldest command and runs the instruction it
decodes to; `withFetchWord` issues exactly its instruction. -/
def Obligations.StepRunsDecodedCommand : Prop :=
  (∀ (s : State) (w : Word) (rest : List Word) (i : Instr), s.cfg.wf → s.commands = w :: rest → decode w = .ok i →
    step s = exec i { s with commands := rest }) ∧
  ∀ (s : State) (i : Instr), s.cfg.wf → step (s.withFetchWord 16 (encode i).toNat) = exec i s

/-- 60_exceptions R217: between commands nothing happens. That a step with no command pending is this pause is the
model's choice (log 1). -/
def Obligations.NoCommandChangesNothing : Prop :=
  ∀ s : State, s.cfg.wf → s.commands = [] → step s = .next s

/-- 00_scope R8: a configuration is refused exactly when it is not well formed, and a well-formed one has
`T_BIT_US ≥ 950`. -/
def Obligations.IllFormedConfigIsRefused : Prop :=
  ∀ s : State,
    (step s = .refused .configInvalid ↔ ¬(1 ≤ s.cfg.capacity ∧ s.cfg.capacity ≤ 255 ∧ 1 ≤ s.cfg.tMs)) ∧
    (s.cfg.wf → 950 ≤ tBitUs s.cfg)

/-- 00_scope R7 and R9: the two durations, and the timing precondition. -/
def Obligations.DurationsOfTheConfig : Prop :=
  tValidateUs = 950 ∧ tBitUs ⟨4, 16, 1⟩ = 950 ∧ tBitUs ⟨4, 16, 2⟩ = 1950 ∧ tBitUs ⟨4, 16, 10⟩ = 9950 ∧
  ∀ c : Config, c.wf → tBitUs c + 50 = 1000 * c.tMs ∧ (cfgTimingOk c ↔ 2 ≤ c.tMs)

/-- 10_state R36: the configuration is written by no command. -/
def Obligations.NoCommandWritesTheConfig : Prop :=
  ∀ (i : Instr) (s t : State), s.cfg.wf → exec i s = .next t → t.cfg = s.cfg

/-- 43_driver_and_host R175: RESET sets the registers and the pin's direction, emits `DirIn`, and touches nothing else;
STATUS then reads 0x0040; a second RESET leaves the same state. -/
def Obligations.ResetReinitialises : Prop :=
  ∀ s : State, ∃ t : State,
    t = { s with mode := .receiving, state := 0x0, len := 0, bitc := 0, cur := 0, idle := 0,
                 pin := ⟨.input, s.pin.out⟩, obs := ⟨.nothing, [.dirIn], .none⟩ } ∧
    exec .reset s = .next t ∧ (s.cfg.wf → statusOf t = 0x0040#16) ∧ exec .reset t = .next t

/-- 10_state R34 and 70_reset_and_hazards R230: the state at power-on. The values of `pin.out`, the buffer bytes and the
timer's duration, which the spec leaves open, are not stated. -/
def Obligations.PowerOnIsTheStateAfterReset : Prop :=
  ∀ c : Config, c.wf →
    (State.powerOn c).cfg = c ∧ (State.powerOn c).mode = .receiving ∧ (State.powerOn c).state = 0x0 ∧
    (State.powerOn c).len = 0 ∧ (State.powerOn c).bitc = 0 ∧ (State.powerOn c).cur = 0 ∧
    (State.powerOn c).idle = 0 ∧ (State.powerOn c).pin.dir = .input ∧ (State.powerOn c).timer.armed = false ∧
    statusOf (State.powerOn c) = 0x0040#16 ∧
    exec .reset (State.powerOn c) =
      .next { State.powerOn c with obs := ⟨.nothing, [.dirIn], .none⟩ }

/-! ### STATUS, DRAIN, ENQ -/

/-- 10_state R35 and 43_driver_and_host R174: STATUS returns the word made of these fields, and changes no register. -/
def Obligations.StatusReturnsItsFields : Prop :=
  ∀ s : State, ∃ w : Word,
    exec .status s = .next { s with obs := ⟨.statusWord w, [], .none⟩ } ∧
    w.extractLsb' 0 4 = s.state ∧ w.getLsbD 4 = decide (s.mode = .sending) ∧
    w.getLsbD 5 = decide (s.len.toNat = s.cfg.capacity) ∧ w.getLsbD 6 = decide (s.len = 0) ∧
    w.getLsbD 7 = false ∧ w.extractLsb' 8 8 = s.len

/-- 43_driver_and_host R173: DRAIN returns the valid bytes in index order and sets `len` to 0 while Receiving, keeps
everything else, returns nothing while Sending, and a second DRAIN returns nothing. The premise `len ≤ C` is INV1 of
10_state R28. -/
def Obligations.DrainReturnsTheValidBytes : Prop :=
  ∀ s : State, s.len.toNat ≤ s.cfg.capacity →
    (s.mode = .receiving →
      exec .drain s = .next
        { s with len := 0
                 obs := ⟨.drained s.len.toNat ((List.range s.len.toNat).map s.buf.read), [], .none⟩ } ∧
      ∀ t, exec .drain s = .next t → exec .drain t = .next { t with obs := ⟨.drained 0 [], [], .none⟩ }) ∧
    (s.mode = .sending → exec .drain s = .next { s with obs := ⟨.drained 0 [], [], .none⟩ })

/-- 43_driver_and_host R172: the four cases of ENQ, with everything each changes. -/
def Obligations.EnqAcceptsOrRejects : Prop :=
  ∀ (s : State) (b : Byte), s.cfg.wf →
    (s.mode = .sending → s.len.toNat < s.cfg.capacity →
      exec (.enq b) s = .next
        { s with buf := s.buf.write s.len.toNat b, len := s.len + 1, obs := ⟨.enqueued .accept, [], .none⟩ }) ∧
    (s.mode = .sending → s.cfg.capacity ≤ s.len.toNat →
      exec (.enq b) s = .next { s with obs := ⟨.enqueued .full, [], .enqFull b⟩ }) ∧
    (s.mode = .receiving → s.state = 0x0 → s.len = 0 →
      exec (.enq b) s = .next
        { s with buf := s.buf.write 0 b, len := 1, bitc := 0, cur := 0, mode := .sending, state := 0x8,
                 obs := ⟨.enqueued .accept, [], .none⟩ }) ∧
    (s.mode = .receiving → ¬(s.state = 0x0 ∧ s.len = 0) →
      exec (.enq b) s = .next { s with obs := ⟨.enqueued .busy, [], .enqBusy b⟩ })

/-- 20_memory R50: the buffer changes only at the index a command stores to, and there it holds the byte stored. -/
def Obligations.BufferChangesOnlyWhereStored : Prop :=
  ∀ (i : Instr) (s t : State), s.cfg.wf → exec i s = .next t →
    (∀ a, storeIndex i s ≠ some a → t.buf.read a = s.buf.read a) ∧
    (s.buf.wf → ∀ a, storeIndex i s = some a → t.buf.read a = storedByte i s)

/-- 20_memory R52, 43_driver_and_host R172 and 95_test_vectors S2: bytes enqueued into an idle block, one that is in
RecvScan with an empty buffer, stand in the buffer in order, and the bytes beyond `C` are dropped without touching the first
`C`. -/
def Obligations.EnqueuedBytesStandInOrder : Prop :=
  ∀ (s : State) (bs : List Byte) (rest : List Word), s.cfg.wf → Inv s → s.mode = .receiving → s.state = 0x0 →
    s.len = 0 → bs ≠ [] → s.commands = bs.map (fun b => encode (.enq b)) ++ rest →
    ∃ t, run bs.length s = .next t ∧
      t.mode = .sending ∧ t.state = 0x8 ∧ t.len.toNat = (bs.take s.cfg.capacity).length ∧
      (List.range t.len.toNat).map t.buf.read = bs.take s.cfg.capacity ∧ t.commands = rest

/-! ### POLL: dispatch and gating -/

/-- 43_driver_and_host R171: POLL faults on Sending with an empty buffer, and in a state of 10_state R28 it runs the
transmit engine while Sending, the receive engine while Receiving with spare capacity, and does nothing with a full
buffer. -/
def Obligations.PollDispatchesByMode : Prop :=
  ∀ s : State,
    (s.mode = .sending → s.len = 0 → ∃ why, exec .poll s = .fault (.invariantBroken why)) ∧
    (SpecInvariants s → s.mode = .sending → exec .poll s = txStep { s with obs := ⟨.nothing, [], .none⟩ }) ∧
    (SpecInvariants s → s.mode = .receiving → s.len.toNat < s.cfg.capacity →
      exec .poll s = rxStep { s with obs := ⟨.nothing, [], .none⟩ }) ∧
    (SpecInvariants s → s.mode = .receiving → s.cfg.capacity ≤ s.len.toNat →
      exec .poll s = .next { s with obs := ⟨.nothing, [], .none⟩ })

/-- 60_exceptions R207, 41_transmit R120, 42_receive R140, decision D35: a POLL that meets a code that is no phase of the
engine `mode` selects faults, with a full buffer too, and says whether the code is reserved or the other engine's. The
names of the two reasons are the model's (log 13). -/
def Obligations.PollFaultsOnAnIllegalState : Prop :=
  ∀ s : State,
    (s.mode = .sending → s.len ≠ 0 →
      (s.state.toNat ≤ 4 → exec .poll s = .fault (.invariantBroken .stateIllegalForMode)) ∧
      ((5 ≤ s.state.toNat ∧ s.state.toNat ≤ 7) ∨ 12 ≤ s.state.toNat →
        exec .poll s = .fault (.invariantBroken .reservedState))) ∧
    (s.mode = .receiving →
      (8 ≤ s.state.toNat ∧ s.state.toNat ≤ 11 → exec .poll s = .fault (.invariantBroken .stateIllegalForMode)) ∧
      ((5 ≤ s.state.toNat ∧ s.state.toNat ≤ 7) ∨ 12 ≤ s.state.toNat →
        exec .poll s = .fault (.invariantBroken .reservedState)))

/-- 10_state R28 and 60_exceptions R207: in a well-formed configuration a POLL faults exactly when the state it meets breaks
one of INV1 to INV7. That the other commands do not test them is the model's reading of decision D35 (log 13). -/
def Obligations.PollFaultsExactlyOnBrokenInvariants : Prop :=
  ∀ s : State, s.cfg.wf →
    ((∃ why, exec .poll s = .fault (.invariantBroken why)) ↔
      ¬(-- INV1
        (s.len.toNat ≤ s.cfg.capacity ∧ s.bitc.toNat ≤ 8 ∧ s.idle ≤ s.cfg.idleThreshold) ∧
        -- INV2
        ((s.mode = .receiving ∧ s.state.toNat ≤ 4) ∨ (s.mode = .sending ∧ 8 ≤ s.state.toNat ∧ s.state.toNat ≤ 11)) ∧
        -- INV3
        (s.mode = .sending → 1 ≤ s.len.toNat ∧ s.cur.toNat < s.len.toNat) ∧
        -- INV4
        (s.state = 0x8 → s.bitc = 0 ∨ s.bitc = 8) ∧ (s.state = 0x9 → s.bitc.toNat ≤ 7) ∧
        (s.state = 0xA ∨ s.state = 0xB → s.bitc = 8) ∧
        -- INV5
        (s.state = 0x2 → s.bitc.toNat ≤ 7 ∧ s.cur.toNat < 2 ^ s.bitc.toNat) ∧ (s.state = 0x3 → s.bitc = 8) ∧
        -- INV6
        (s.mode = .receiving → s.len.toNat = s.cfg.capacity → s.state = 0x4) ∧
        -- INV7
        (s.state = 0x1 ∨ s.state = 0x2 ∨ s.state = 0x3 ∨ s.state = 0x9 ∨ s.state = 0xA ∨ s.state = 0xB →
          s.timer.armed = true)))

/-- 40_timing R104: in a gated state a POLL whose expiry sample is false changes no register, emits no action and no
event, and does not sample the pin. `SpecInvariants` rules out the states that fault. -/
def Obligations.GatedPollWithoutExpirySkips : Prop :=
  ∀ s : State, SpecInvariants s → isGated s.state = true →
    timerExpired s = false →
    exec .poll s = .next { s with expiries := s.expiries.tail
                                  draws := if s.expiries.isEmpty then s.draws + 1 else s.draws
                                  obs := ⟨.nothing, [], .none⟩ }

/-- 40_timing R107: an arm leaves the timer armed with its duration and no expiry seen, and once a sample was true every
later one is until the next arm. -/
def Obligations.TimerAnswersAreSticky : Prop :=
  (∀ s : State, timerExpired s = true → timerExpired (afterExpiry s) = true) ∧
  ∀ (i : Instr) (s t : State), s.cfg.wf → exec i s = .next t →
    (∀ d, .arm d ∈ t.obs.actions → t.timer = ⟨true, d, false⟩) ∧
    ((∀ d, .arm d ∉ t.obs.actions) → s.timer.seenExpired = true → t.timer.seenExpired = true ∧ timerExpired t = true)

/-- 60_exceptions R213 and R214: with the pin listening, `Pin.read()` is HIGH when no other pin drives the line, and the
driver's level when one does; a read takes one line sample and changes nothing else of the block. Under contention, and
while the pin itself drives, the level is a free value and nothing is stated of it. -/
def Obligations.PinReadsTheLine : Prop :=
  ∀ (s : State), s.pin.dir = .input →
    (s.lines = [] → pinLevel s = HIGH) ∧
    (∀ ls, s.lines = [] :: ls → pinLevel s = HIGH ∧ afterPinRead s = { s with lines := ls }) ∧
    (∀ l ls, s.lines = [l] :: ls → pinLevel s = l ∧ afterPinRead s = { s with lines := ls })

/-! ### POLL: the transmit phases -/

/-- 41_transmit R121: SendStart. -/
def Obligations.SendStartDrivesTheStartBit : Prop :=
  ∀ s : State, s.cfg.wf → SpecInvariants s → s.mode = .sending → s.state = 0x8 →
    exec .poll s = .next
      { s with state := 0x9, bitc := 0
               pin := ⟨if s.cur = 0 then .output else s.pin.dir, LOW⟩
               timer := ⟨true, tBitUs s.cfg, false⟩
               obs := ⟨.nothing, (if s.cur = 0 then [.dirOut] else []) ++ [.low, .arm (tBitUs s.cfg)], .none⟩ }

/-- 41_transmit R122: SendData, and its one fault (20_memory R55). -/
def Obligations.SendDataDrivesTheNextBit : Prop :=
  (∀ s : State, SpecInvariants s → s.mode = .sending → s.state = 0x9 →
    (timerExpired s = false → exec .poll s = .next { afterExpiry s with obs := ⟨.nothing, [], .none⟩ }) ∧
    (timerExpired s = true →
      exec .poll s = .next
        { afterExpiry s with
          bitc := s.bitc + 1
          state := if s.bitc + 1 = 8 then 0xA else 0x9
          pin := ⟨s.pin.dir, (s.buf.read s.cur.toNat).getLsbD s.bitc.toNat⟩
          timer := ⟨true, tBitUs s.cfg, false⟩
          obs := ⟨.nothing, [.arm (tBitUs s.cfg),
            if (s.buf.read s.cur.toNat).getLsbD s.bitc.toNat then .high else .low], .none⟩ })) ∧
  ∀ s : State, s.mode = .sending → s.state = 0x9 → s.len.toNat ≤ s.cur.toNat →
    ∃ why, exec .poll s = .fault (.invariantBroken why)

/-- 41_transmit R123: SendStop. -/
def Obligations.SendStopDrivesTheStopBit : Prop :=
  ∀ s : State, SpecInvariants s → s.mode = .sending → s.state = 0xA →
    (timerExpired s = false → exec .poll s = .next { afterExpiry s with obs := ⟨.nothing, [], .none⟩ }) ∧
    (timerExpired s = true →
      exec .poll s = .next
        { afterExpiry s with
          state := 0xB, pin := ⟨s.pin.dir, HIGH⟩, timer := ⟨true, tBitUs s.cfg, false⟩
          obs := ⟨.nothing, [.high, .arm (tBitUs s.cfg)], .none⟩ })

/-- 41_transmit R124: SendPause. Its rule is total, so its end is stated of the transmit engine's step too, for cursors that
POLL faults on. Which count TX_DONE records is stated in `EventsHaveTheirCauses` (log 16). -/
def Obligations.SendPauseEndsTheByte : Prop :=
  (∀ s : State, SpecInvariants s → s.mode = .sending → s.state = 0xB →
    (timerExpired s = false → exec .poll s = .next { afterExpiry s with obs := ⟨.nothing, [], .none⟩ }) ∧
    (timerExpired s = true → s.cur.toNat + 1 < s.len.toNat →
      exec .poll s = .next
        { afterExpiry s with cur := s.cur + 1, state := 0x8, obs := ⟨.nothing, [], .none⟩ }) ∧
    (timerExpired s = true → s.len.toNat ≤ s.cur.toNat + 1 → ∃ count,
      exec .poll s = .next
        { afterExpiry s with
          mode := .receiving, state := 0x0, len := 0, bitc := 0, cur := 0, idle := 0
          pin := ⟨.input, s.pin.out⟩
          obs := ⟨.nothing, [.dirIn], .txDone count⟩ })) ∧
  ∀ s : State, s.state = 0xB → timerExpired s = true → s.len.toNat ≤ s.cur.toNat + 1 → ∃ count,
    txStep s = .next
      { afterExpiry s with
        mode := .receiving, state := 0x0, len := 0, bitc := 0, cur := 0, idle := 0
        pin := ⟨.input, s.pin.out⟩
        obs := ⟨s.obs.response, s.obs.actions ++ [.dirIn], .txDone count⟩ }

/-! ### POLL: the receive phases -/

/-- 42_receive R141: RecvScan and the idle recovery. -/
def Obligations.RecvScanDetectsOrCountsIdle : Prop :=
  ∀ s : State, SpecInvariants s → s.mode = .receiving → s.len.toNat < s.cfg.capacity → s.state = 0x0 →
    (pinLevel s = LOW →
      exec .poll s = .next
        { afterPinRead s with
          idle := 0, state := 0x1, timer := ⟨true, tValidateUs, false⟩
          obs := ⟨.nothing, [.arm tValidateUs], .none⟩ }) ∧
    (pinLevel s = HIGH → s.idle + 1 ≤ s.cfg.idleThreshold →
      exec .poll s = .next { afterPinRead s with idle := s.idle + 1, obs := ⟨.nothing, [], .none⟩ }) ∧
    (pinLevel s = HIGH → s.cfg.idleThreshold < s.idle + 1 →
      exec .poll s = .next
        { afterPinRead s with len := 0, bitc := 0, cur := 0, idle := 0, obs := ⟨.nothing, [], .idleTimeout⟩ })

/-- 42_receive R142: RecvValidate. -/
def Obligations.RecvValidateConfirmsOrFlushes : Prop :=
  ∀ s : State, SpecInvariants s → s.mode = .receiving → s.len.toNat < s.cfg.capacity → s.state = 0x1 →
    (timerExpired s = false → exec .poll s = .next { afterExpiry s with obs := ⟨.nothing, [], .none⟩ }) ∧
    (timerExpired s = true → pinLevel (afterExpiry s) = LOW →
      exec .poll s = .next
        { afterPinRead (afterExpiry s) with
          bitc := 0, cur := 0, state := 0x2, timer := ⟨true, tBitUs s.cfg, false⟩
          obs := ⟨.nothing, [.arm (tBitUs s.cfg)], .none⟩ }) ∧
    (timerExpired s = true → pinLevel (afterExpiry s) = HIGH →
      exec .poll s = .next
        { afterPinRead (afterExpiry s) with
          len := 0, bitc := 0, cur := 0, state := 0x0, obs := ⟨.nothing, [], .startInvalid⟩ })

/-- 42_receive R143: RecvData. The new accumulator is given bit by bit. -/
def Obligations.RecvDataAssemblesTheNextBit : Prop :=
  ∀ s : State, SpecInvariants s → s.mode = .receiving → s.len.toNat < s.cfg.capacity → s.state = 0x2 →
    (timerExpired s = false → exec .poll s = .next { afterExpiry s with obs := ⟨.nothing, [], .none⟩ }) ∧
    (timerExpired s = true → ∃ acc : Byte,
      (∀ j, j < 8 → acc.getLsbD j =
        (s.cur.getLsbD j || (pinLevel (afterExpiry s) && decide (j = s.bitc.toNat)))) ∧
      exec .poll s = .next
        { afterPinRead (afterExpiry s) with
          cur := acc, bitc := s.bitc + 1
          state := if s.bitc + 1 = 8 then 0x3 else 0x2
          timer := ⟨true, tBitUs s.cfg, false⟩
          obs := ⟨.nothing, [.arm (tBitUs s.cfg)], .none⟩ })

/-- 42_receive R144: RecvStop. POLL never runs it with a full buffer (42_receive R140), so its RX_OVERFLOW branch is stated
of the receive engine's step itself. -/
def Obligations.RecvStopCommitsOrDiscards : Prop :=
  (∀ s : State, SpecInvariants s → s.mode = .receiving → s.len.toNat < s.cfg.capacity → s.state = 0x3 →
    (timerExpired s = false → exec .poll s = .next { afterExpiry s with obs := ⟨.nothing, [], .none⟩ }) ∧
    (timerExpired s = true → pinLevel (afterExpiry s) = HIGH →
      exec .poll s = .next
        { afterPinRead (afterExpiry s) with
          buf := s.buf.write s.len.toNat s.cur, len := s.len + 1, state := 0x4
          obs := ⟨.nothing, [], .commit s.cur s.len.toNat⟩ }) ∧
    (timerExpired s = true → pinLevel (afterExpiry s) = LOW →
      exec .poll s = .next
        { afterPinRead (afterExpiry s) with state := 0x4, obs := ⟨.nothing, [], .stopMissing s.cur⟩ })) ∧
  ∀ s : State, s.state = 0x3 → s.cfg.capacity ≤ s.len.toNat → timerExpired s = true →
    pinLevel (afterExpiry s) = HIGH →
    rxStep s = .next
      { afterPinRead (afterExpiry s) with state := 0x4, obs := { s.obs with event := .rxOverflow s.cur } }

/-- 42_receive R145: RecvPause. -/
def Obligations.RecvPauseReturnsToScan : Prop :=
  ∀ s : State, SpecInvariants s → s.mode = .receiving → s.len.toNat < s.cfg.capacity → s.state = 0x4 →
    exec .poll s = .next { s with state := 0x0, obs := ⟨.nothing, [], .none⟩ }

/-! ### Whole-machine rules -/

/-- 40_timing R101: every arm of the timer is in the arming table, and happens when the table says. -/
def Obligations.ArmsAreInTheArmingTable : Prop :=
  ∀ (i : Instr) (s t : State) (d : Nat), s.cfg.wf → exec i s = .next t → .arm d ∈ t.obs.actions →
    i = .poll ∧
    ((s.mode = .receiving ∧ s.state = 0x0 ∧ pinLevel s = LOW ∧ t.state = 0x1 ∧ d = tValidateUs) ∨
     (s.mode = .receiving ∧ s.state = 0x1 ∧ timerExpired s = true ∧ pinLevel (afterExpiry s) = LOW ∧ t.state = 0x2 ∧
       d = tBitUs s.cfg) ∨
     (s.mode = .receiving ∧ s.state = 0x2 ∧ timerExpired s = true ∧ d = tBitUs s.cfg) ∨
     (s.mode = .sending ∧ s.state = 0x8 ∧ d = tBitUs s.cfg) ∨
     (s.mode = .sending ∧ (s.state = 0x9 ∨ s.state = 0xA) ∧ timerExpired s = true ∧ d = tBitUs s.cfg))

/-- 30_encoding R81 and 20_memory R58: a command emits at most three actions, and ENQ, DRAIN and STATUS emit none. -/
def Obligations.ActionsPerCommand : Prop :=
  ∀ (i : Instr) (s t : State), s.cfg.wf → exec i s = .next t →
    t.obs.actions.length ≤ 3 ∧ (i ≠ .poll → i ≠ .reset → t.obs.actions = []) ∧ (i = .reset → t.obs.actions = [.dirIn])

/-- 10_state R21 and 60_exceptions R210: what changes `mode`. -/
def Obligations.ModeChangesOnlyByItsWriters : Prop :=
  ∀ (i : Instr) (s t : State), s.cfg.wf → exec i s = .next t → t.mode ≠ s.mode →
    (t.mode = .sending ∧ s.state = 0x0 ∧ s.len = 0 ∧ ∃ b, i = .enq b) ∨
    (t.mode = .receiving ∧ i = .poll ∧ s.state = 0xB ∧ timerExpired s = true ∧ s.len.toNat = s.cur.toNat + 1) ∨
    (t.mode = .receiving ∧ i = .reset)

/-- 60_exceptions R201: what each event's cause is and what it records. RX_OVERFLOW is raised by no command
(60_exceptions R205). That the count TX_DONE records is `len` before the flush is the model's reading (log 16). -/
def Obligations.EventsHaveTheirCauses : Prop :=
  ∀ (i : Instr) (s t : State), s.cfg.wf → exec i s = .next t →
    (t.obs.event = .startInvalid →
      i = .poll ∧ s.mode = .receiving ∧ s.state = 0x1 ∧ timerExpired s = true ∧
      pinLevel (afterExpiry s) = HIGH ∧ t.len = 0) ∧
    (t.obs.event = .idleTimeout →
      i = .poll ∧ s.mode = .receiving ∧ s.state = 0x0 ∧ pinLevel s = HIGH ∧ s.cfg.idleThreshold < s.idle + 1 ∧
      t.len = 0) ∧
    (∀ b, t.obs.event = .stopMissing b →
      i = .poll ∧ s.mode = .receiving ∧ s.state = 0x3 ∧ timerExpired s = true ∧
      pinLevel (afterExpiry s) = LOW ∧ b = s.cur) ∧
    (∀ b, t.obs.event ≠ .rxOverflow b) ∧
    (∀ b, t.obs.event = .enqFull b → i = .enq b ∧ s.mode = .sending ∧ s.cfg.capacity ≤ s.len.toNat) ∧
    (∀ b, t.obs.event = .enqBusy b → i = .enq b ∧ s.mode = .receiving ∧ ¬(s.state = 0x0 ∧ s.len = 0)) ∧
    (∀ b n, t.obs.event = .commit b n →
      i = .poll ∧ s.mode = .receiving ∧ s.state = 0x3 ∧ timerExpired s = true ∧
      pinLevel (afterExpiry s) = HIGH ∧ b = s.cur ∧ n = s.len.toNat) ∧
    (∀ n, t.obs.event = .txDone n →
      i = .poll ∧ s.mode = .sending ∧ s.state = 0xB ∧ timerExpired s = true ∧ s.len.toNat = s.cur.toNat + 1 ∧
      n = s.len.toNat)

/-- 40_timing R106 and 30_encoding R76: only POLL takes inputs, and it takes at most one answer of the timer and at most
one line sample. -/
def Obligations.InputsAreTakenOnlyByPoll : Prop :=
  ∀ (i : Instr) (s t : State), s.cfg.wf → exec i s = .next t →
    (i ≠ .poll → t.expiries = s.expiries ∧ t.lines = s.lines ∧ t.draws = s.draws) ∧
    (t.expiries = s.expiries ∨ t.expiries = s.expiries.tail) ∧ (t.lines = s.lines ∨ t.lines = s.lines.tail) ∧
    t.commands = s.commands

/-! ### Invariants, faults, runs -/

/-- 10_state R28, at power-on: the invariants hold whatever the host will issue and the environment answer. -/
def Obligations.InvariantsHoldAtPowerOn : Prop :=
  ∀ (c : Config) (cs : List Word) (es : List Bool) (ls : List (List Level)), c.wf → Inv (booted c cs es ls)

/-- 10_state R28: every step from a state that meets the invariants leads to one that meets them. -/
def Obligations.EveryStepKeepsTheInvariants : Prop :=
  ∀ s t : State, Inv s → step s = .next t → Inv t

/-- 43_driver_and_host R170, 60_exceptions R200: under the invariants every command completes. -/
def Obligations.EveryCommandCompletes : Prop :=
  ∀ (i : Instr) (s : State), s.cfg.wf → Inv s → ∃ t, exec i s = .next t

/-- 10_state R28, with 30_encoding R73, 40_timing R101 and 20_memory R50, and 60_exceptions R207: every state a run from
power-on reaches meets the invariants, and no such run faults. -/
def Obligations.RunsFromPowerOnKeepInvariantsAndNeverFault : Prop :=
  ∀ (c : Config) (cs : List Word) (es : List Bool) (ls : List (List Level)) (k : Nat), c.wf →
    (∀ t, run k (booted c cs es ls) = .next t → Inv t) ∧
    ∀ r, run k (booted c cs es ls) ≠ .fault r

/-- 20_memory R56: states that differ only in stale bytes step alike: what the host and the line see, and every register,
is the same, and only stale bytes can differ again. -/
def Obligations.StaleBytesAreUnobservable : Prop :=
  ∀ s t : State, s.buf.wf → t.buf.wf → SameButStale s t →
    match step s with
    | .next s' => ∃ t', step t = .next t' ∧ SameButStale s' t'
    | .fault r => step t = .fault r
    | .refused r => step t = .refused r

/-- 42_receive R141 and 60_exceptions R203: from `idle` = 0, IDLE_THRESHOLD POLLs that see HIGH only count, and the next
one flushes. Where State lists fewer line samples than that, nothing drives the line and it reads HIGH (log 5). -/
def Obligations.IdleLineFlushesAfterThreshold : Prop :=
  ∀ (s : State) (rest : List Word), s.cfg.wf → Inv s → s.mode = .receiving → s.state = 0x0 → s.idle = 0 →
    s.commands = List.replicate (s.cfg.idleThreshold + 1) (encode .poll) ++ rest →
    (∀ ds ∈ s.lines.take (s.cfg.idleThreshold + 1), lineLevel ds = some HIGH) →
    (∀ k, k ≤ s.cfg.idleThreshold → ∃ t, run k s = .next t ∧
      t.idle = k ∧ t.len = s.len ∧ t.buf = s.buf ∧ t.state = 0x0) ∧
    ∃ t, run (s.cfg.idleThreshold + 1) s = .next t ∧
      t.idle = 0 ∧ t.len = 0 ∧ t.bitc = 0 ∧ t.cur = 0 ∧ t.state = 0x0 ∧ t.mode = .receiving ∧
      t.obs.event = .idleTimeout ∧ t.commands = rest

/-- 41_transmit R125 and R126: with every expiry sample true, eleven POLLs send the byte at the byte cursor as one frame
of 30_encoding R70: after each of the first ten the pin drives that bit-time's level onto the line. The last leaves the block
at the next byte, still driving HIGH, or back in Receiving with the pin driving nothing. -/
def Obligations.ElevenPollsSendOneFrame : Prop :=
  ∀ (s : State) (rest : List Word) (es : List Bool), s.cfg.wf → Inv s → s.mode = .sending → s.state = 0x8 →
    s.commands = List.replicate 11 (encode .poll) ++ rest → s.expiries = List.replicate 10 true ++ es →
    drivenLevels 11 s = (frameOf (s.buf.read s.cur.toNat)).map some ++
      [if s.cur.toNat + 1 < s.len.toNat then some HIGH else none] ∧
    ∃ t, run 11 s = .next t ∧ t.commands = rest ∧ t.expiries = es ∧ t.buf = s.buf ∧
      (s.cur.toNat + 1 < s.len.toNat →
        t.mode = .sending ∧ t.state = 0x8 ∧ t.len = s.len ∧ t.cur = s.cur + 1 ∧ t.pin = ⟨.output, HIGH⟩) ∧
      (s.len.toNat = s.cur.toNat + 1 →
        t.mode = .receiving ∧ t.state = 0x0 ∧ t.len = 0 ∧ t.bitc = 0 ∧ t.cur = 0 ∧ t.idle = 0 ∧
        t.pin = ⟨.input, HIGH⟩ ∧ t.obs.event = .txDone s.len.toNat)

/-- 42_receive R147 and R148: with every expiry sample true, twelve POLLs that see a LOW scan sample and then the frame of
`b` commit `b` behind the bytes already there. If that fills the buffer the block waits in RecvPause (42_receive R145). -/
def Obligations.TwelvePollsReceiveOneFrame : Prop :=
  ∀ (s : State) (b : Byte) (rest : List Word) (es : List Bool) (ls : List (List Level)), s.cfg.wf → Inv s →
    s.mode = .receiving → s.state = 0x0 → s.len.toNat < s.cfg.capacity →
    s.commands = List.replicate 12 (encode .poll) ++ rest → s.expiries = List.replicate 10 true ++ es →
    s.lines = (LOW :: frameOf b).map (fun l => [l]) ++ ls →
    ∃ t, run 12 s = .next t ∧ t.commands = rest ∧ t.expiries = es ∧ t.lines = ls ∧
      t.mode = .receiving ∧ t.len.toNat = s.len.toNat + 1 ∧ t.idle = 0 ∧
      t.state = (if s.len.toNat + 1 < s.cfg.capacity then 0x0 else 0x4) ∧
      (List.range t.len.toNat).map t.buf.read = (List.range s.len.toNat).map s.buf.read ++ [b]

/-- 30_encoding R71 and R72, from the two frames above: a receiver whose samples are what a sender drives, the start bit at
its scan and at its validation sample and then bit-time by bit-time, commits the byte sent. It says nothing of when a sample
falls, so it is no delivery claim; that is `PeerOnTheLineReceivesTheByte`. -/
def Obligations.ReceiverOfTheDrivenLevelsCommitsTheByte : Prop :=
  ∀ (a r : State) (es es' : List Bool) (cs cs' : List Word) (ls : List (List Level)),
    a.cfg.wf → Inv a → a.mode = .sending → a.state = 0x8 →
    a.commands = List.replicate 11 (encode .poll) ++ cs → a.expiries = List.replicate 10 true ++ es →
    r.cfg.wf → Inv r → r.mode = .receiving → r.state = 0x0 → r.len.toNat < r.cfg.capacity →
    r.commands = List.replicate 12 (encode .poll) ++ cs' → r.expiries = List.replicate 10 true ++ es' →
    r.lines = (drivenLevels 1 a ++ drivenLevels 10 a).map Option.toList ++ ls →
    ∃ t, run 12 r = .next t ∧ t.len.toNat = r.len.toNat + 1 ∧
      t.buf.read r.len.toNat = a.buf.read a.cur.toNat

/-- 30_encoding R72: assembling the data levels of a byte's frame gives the byte, and sample `k` is bit `k`. -/
def Obligations.AssemblyUndoesTheFrame : Prop :=
  (∀ b : Byte, assembleFrom 0 (((frameOf b).drop 1).take 8) = b) ∧
  ∀ vs : List Level, vs.length = 8 → ∀ k, k < 8 → (assembleFrom 0 vs).getLsbD k = vs.getD k LOW

/-! ### Several blocks on one line -/

/-- 60_exceptions R215 and 20_memory R63: a command to one block changes no other block. -/
def Obligations.BlocksShareNoState : Prop :=
  ∀ (e e' : RefEnv) (k : Nat) (w : Word), e.issue k w = .next e' →
    e'.time = e.time ∧ e'.schedule = e.schedule ∧ e'.members.length = e.members.length ∧
    ∀ j, j ≠ k → e'.members[j]? = e.members[j]?

/-- 60_exceptions R216: the block a command is issued to runs it, with a timer that has expired exactly when the time is
at or past the deadline, and an arm of `d` sets the deadline to the time plus `d`. -/
def Obligations.RefEnvTimerFollowsTheDeadline : Prop :=
  ∀ (e e' : RefEnv) (k : Nat) (i : Instr) (m : Member), e.members[k]? = some m → m.state.cfg.wf →
    m.state.timer.seenExpired = false → e.issue k (encode i) = .next e' →
    (timerExpired (presented e.time e.draws (driversOf (e.members.eraseIdx k)) (encode i) m) = true ↔
      m.deadline ≤ e.time) ∧
    ∃ t m', exec i { presented e.time e.draws (driversOf (e.members.eraseIdx k)) (encode i) m with commands := [] } =
        .next t ∧
      e'.members[k]? = some m' ∧ m'.period = m.period ∧
      m'.state = { t with expiries := [], lines := [] } ∧
      ((∀ d, .arm d ∈ t.obs.actions → m'.deadline = e.time + d) ∧
       ((∀ d, .arm d ∉ t.obs.actions) → m'.deadline = m.deadline))

/-- 00_scope R9, 43_driver_and_host R177 and 95_test_vectors S1: delivery from one block to another. On a line with a
sender at SendStart and a scanning receiver that has room, both of one configuration that meets `cfg_timing_ok`, both polled
every microsecond, the sender first, and no other command issued, the receiver commits the byte at the sender's cursor
`950 + 9 * T_BIT_US` microseconds after the start bit begins (70_reset_and_hazards R245), behind the bytes it holds. -/
def Obligations.PeerOnTheLineReceivesTheByte : Prop :=
  ∀ (e : RefEnv) (a b : Member), e.members = [a, b] → e.schedule = [] → a.period = 1 → b.period = 1 →
    a.state.cfg.wf → cfgTimingOk a.state.cfg → tBitUs b.state.cfg = tBitUs a.state.cfg → b.state.cfg.wf →
    Inv a.state → a.state.mode = .sending → a.state.state = 0x8 →
    Inv b.state → b.state.mode = .receiving → b.state.state = 0x0 → b.state.len.toNat < b.state.cfg.capacity →
    ∃ e' a' b', RefEnv.ticks (tValidateUs + 9 * tBitUs a.state.cfg + 1) e = .next e' ∧ e'.members = [a', b'] ∧
      b'.state.mode = .receiving ∧ b'.state.state = 0x4 ∧ b'.state.len.toNat = b.state.len.toNat + 1 ∧
      (List.range b'.state.len.toNat).map b'.state.buf.read =
        (List.range b.state.len.toNat).map b.state.buf.read ++ [a.state.buf.read a.state.cur.toNat] ∧
      b'.state.obs.event = .commit (a.state.buf.read a.state.cur.toNat) b.state.len.toNat
end

