-- ==== Sys2Proof/Laws/PerInstr.lean ====
section
/-! SUPPORT. The per-instruction family `WordLayout`: the fields of an instruction's word are its opcode, a zero
reserved field and its IMM8 (30_encoding R74). -/

namespace Sys2Proof.Laws.WordLayout

/-- The word of `i` has OP = its opcode, RSV = 0 and IMM8 = its operand or 0. -/
def Statement (i : Instr) : Prop :=
  opField (encode i) = i.opcode ∧ rsvField (encode i) = 0 ∧ imm8Field (encode i) = i.imm8

/-- The fields of any word laid out from fields. -/
theorem of_fields (op : BitVec 4) (imm : Byte) :
    opField (op ++ (0#4 ++ imm)) = op ∧ rsvField (op ++ (0#4 ++ imm)) = 0 ∧ imm8Field (op ++ (0#4 ++ imm)) = imm := by
  refine ⟨?_, ?_, ?_⟩ <;>
  · simp only [opField, rsvField, imm8Field]
    apply BitVec.eq_of_getLsbD_eq
    intro j hj
    simp only [BitVec.getLsbD_extractLsb', BitVec.getLsbD_append, BitVec.getLsbD_zero]
    first
    | (have h1 : ¬ (12 + j < 12) := by omega
       simp [h1, hj]; done)
    | (have h1 : 8 + j < 12 := by omega
       have h2 : ¬ (8 + j < 8) := by omega
       simp [h1, h2]; done)
    | (have h1 : j < 12 := by omega
       simp [h1, hj])

theorem reset : Statement .reset := of_fields _ _
theorem poll : Statement .poll := of_fields _ _
theorem enq (b : Byte) : Statement (.enq b) := of_fields _ _
theorem drain : Statement .drain := of_fields _ _
theorem status : Statement .status := of_fields _ _

end Sys2Proof.Laws.WordLayout
end

