-- ==== Sys2Proof/Laws/Decode.lean ====
section
/-! SUPPORT. The decoder by cases: which word gives which instruction, in terms of the word's fields. -/

namespace Sys2Proof

/-- A word is its three fields, side by side (30_encoding R74). -/
theorem word_of_fields (w : Word) : opField w ++ (rsvField w ++ imm8Field w) = w := by
  apply BitVec.eq_of_getLsbD_eq
  intro j hj
  simp only [opField, rsvField, imm8Field, BitVec.getLsbD_append, BitVec.getLsbD_extractLsb']
  by_cases h1 : j < 8
  · have : j < 4 + 8 := by omega
    simp [h1, this]
  · by_cases h2 : j < 4 + 8
    · have : j - 8 < 4 := by omega
      have h3 : 8 + (j - 8) = j := by omega
      simp [h1, h2, this, h3]
    · have : j - 12 < 4 := by omega
      have h3 : 12 + (j - 12) = j := by omega
      simp [h2, this, h3]

theorem fields_ext {v w : Word} (ho : opField v = opField w) (hr : rsvField v = rsvField w)
    (hi : imm8Field v = imm8Field w) : v = w := by
  rw [← word_of_fields v, ← word_of_fields w, ho, hr, hi]

/-- A full mask compares the whole word. -/
theorem mask_full (w p : Word) : w &&& 0xFFFF#16 = p ↔ w = p := by
  have h : w &&& 0xFFFF#16 = w := by
    have := BitVec.and_allOnes (x := w)
    simpa using this
  rw [h]

/-- ENQ's mask compares OP and RSV. -/
theorem mask_enq (w : Word) : w &&& 0xFF00#16 = 0x2000#16 ↔ opField w = 2 ∧ rsvField w = 0 := by
  have hm : w &&& 0xFF00#16 = opField w ++ (rsvField w ++ 0#8) := by
    apply BitVec.eq_of_getLsbD_eq
    intro j hj
    have hc : ∀ j, j < 16 → (0xFF00#16 : Word).getLsbD j = decide (8 ≤ j) := by decide
    rw [BitVec.getLsbD_and, hc j hj]
    conv_lhs => rw [← word_of_fields w]
    simp only [BitVec.getLsbD_append, BitVec.getLsbD_zero]
    by_cases h1 : j < 8
    · have h2 : j < 4 + 8 := by omega
      have h3 : ¬ 8 ≤ j := by omega
      simp [h1, h2, h3]
    · have h3 : 8 ≤ j := by omega
      simp [h1, h3]
  rw [hm, show (0x2000#16 : Word) = 2#4 ++ (0#4 ++ 0#8) from by decide]
  constructor
  · intro h
    have f := Laws.WordLayout.of_fields
    constructor
    · have := congrArg (BitVec.extractLsb' 12 4) h
      rwa [BitVec.extractLsb'_append_eq_left, BitVec.extractLsb'_append_eq_left] at this
    · have := congrArg (fun v : Word => v.extractLsb' 8 4) h
      have e : ∀ (o r : BitVec 4), (o ++ (r ++ 0#8) : Word).extractLsb' 8 4 = r := by decide
      exact (e _ _).symm.trans (this.trans (e _ _))
  · rintro ⟨ho, hr⟩; rw [ho, hr]; rfl

/-- The decoder by cases. -/
theorem decode_eq (w : Word) : decode w =
    if w = 0x0000#16 then .ok .reset
    else if w = 0x1000#16 then .ok .poll
    else if opField w = 2 ∧ rsvField w = 0 then .ok (.enq (imm8Field w))
    else if w = 0x3000#16 then .ok .drain
    else if w = 0x4000#16 then .ok .status
    else .error (illegalBecause w) := by
  have full : ∀ p : Word, (w &&& 0xFFFF#16 == p) = decide (w = p) := fun p => by
    rw [Bool.beq_eq_decide_eq]; exact decide_eq_decide.2 (mask_full w p)
  have enq : (w &&& 0xFF00#16 == 0x2000#16) = decide (opField w = 2 ∧ rsvField w = 0) := by
    rw [Bool.beq_eq_decide_eq]; exact decide_eq_decide.2 (mask_enq w)
  simp only [decode, opcodeRows, Row.hits, List.find?_cons, List.find?_nil, full, enq]
  by_cases h0 : w = 0x0000#16
  · simp [h0]
  by_cases h1 : w = 0x1000#16
  · simp [h1]
  by_cases h2 : opField w = 2 ∧ rsvField w = 0
  · simp only [decide_eq_false h0, decide_eq_false h1, decide_eq_true h2, if_neg h0, if_neg h1, if_pos h2]
  by_cases h3 : w = 0x3000#16
  · simp only [decide_eq_false h0, decide_eq_false h1, decide_eq_false h2, decide_eq_true h3, if_neg h0, if_neg h1,
      if_neg h2, if_pos h3]
  by_cases h4 : w = 0x4000#16
  · simp only [decide_eq_false h0, decide_eq_false h1, decide_eq_false h2, decide_eq_false h3, decide_eq_true h4,
      if_neg h0, if_neg h1, if_neg h2, if_neg h3, if_pos h4]
  · simp only [decide_eq_false h0, decide_eq_false h1, decide_eq_false h2, decide_eq_false h3, decide_eq_false h4,
      if_neg h0, if_neg h1, if_neg h2, if_neg h3, if_neg h4]

end Sys2Proof
end

