-- ==== Sys2Proof/Laws/Memory.lean ====
section
/-! SUPPORT. The laws of the buffer: what is read after a write, and that every write keeps the canonical form. -/

namespace Sys2Proof.Machine

theorem Memory.wf_nil : Memory.wf [] := by simp [Memory.wf]

theorem Memory.wf_tail {c : Host.Cell} {m : Memory} (h : Memory.wf (c :: m)) : Memory.wf m :=
  ⟨(List.pairwise_cons.1 h.1).2, fun x hx => h.2 x (List.mem_cons_of_mem _ hx)⟩

theorem Memory.wf_head {c : Host.Cell} {m : Memory} (h : Memory.wf (c :: m)) : ∀ x ∈ m, c.1 < x.1 :=
  (List.pairwise_cons.1 h.1).1

theorem Memory.wf_cons {c : Host.Cell} {m : Memory} (hm : m.wf) (hc : c.2 ≠ unlistedByte) (hlt : ∀ x ∈ m, c.1 < x.1) :
    Memory.wf (c :: m) :=
  ⟨List.pairwise_cons.2 ⟨hlt, hm.1⟩, by
    intro x hx
    rcases List.mem_cons.1 hx with rfl | hx
    · exact hc
    · exact hm.2 x hx⟩

/-- An index below every listed one is not listed. -/
theorem Memory.read_below {m : Memory} {i : Nat} (h : ∀ x ∈ m, i < x.1) : m.read i = unlistedByte := by
  induction m with
  | nil => rfl
  | cons c m ih =>
    have hc := h c (List.mem_cons_self ..)
    have : c.1 ≠ i := by omega
    simp only [Memory.read, this, if_false]
    exact ih fun x hx => h x (List.mem_cons_of_mem _ hx)

theorem Memory.entry_mem {i : Nat} {v : Byte} {m : Memory} {x : Host.Cell} (h : x ∈ Memory.entry i v m) :
    x = (i, v) ∨ x ∈ m := by
  unfold Memory.entry at h
  split at h
  · exact .inr h
  · exact List.mem_cons.1 h

theorem Memory.entry_wf {i : Nat} {v : Byte} {m : Memory} (hm : m.wf) (hlt : ∀ x ∈ m, i < x.1) :
    (Memory.entry i v m).wf := by
  unfold Memory.entry
  split
  · exact hm
  · exact Memory.wf_cons hm ‹_› hlt

theorem Memory.entry_read_same {i : Nat} {v : Byte} {m : Memory} (hlt : ∀ x ∈ m, i < x.1) :
    (Memory.entry i v m).read i = v := by
  unfold Memory.entry
  split
  · rw [Memory.read_below hlt]; exact (‹v = unlistedByte›).symm
  · simp [Memory.read]

theorem Memory.entry_read_other {i j : Nat} {v : Byte} {m : Memory} (h : j ≠ i) :
    (Memory.entry i v m).read j = m.read j := by
  unfold Memory.entry
  split
  · rfl
  · simp [Memory.read, Ne.symm h]

/-- A write lists no index but its own and those listed before. -/
theorem Memory.write_mem {m : Memory} {i : Nat} {v : Byte} {x : Host.Cell} (h : x ∈ m.write i v) :
    x.1 = i ∨ x ∈ m := by
  induction m with
  | nil => rcases Memory.entry_mem h with rfl | h <;> simp_all
  | cons c m ih =>
    simp only [Memory.write] at h
    split at h
    · rcases Memory.entry_mem h with rfl | h <;> simp_all
    · split at h
      · rcases Memory.entry_mem h with rfl | h <;> simp_all
      · rcases List.mem_cons.1 h with rfl | h
        · simp
        · rcases ih h with h | h <;> simp [h]

/-- Every write keeps the canonical form. -/
theorem Memory.write_wf {m : Memory} (h : m.wf) (i : Nat) (v : Byte) : (m.write i v).wf := by
  induction m with
  | nil => exact Memory.entry_wf h (by simp)
  | cons c m ih =>
    have hm := Memory.wf_tail h
    have hlt := Memory.wf_head h
    simp only [Memory.write]
    split
    · refine Memory.entry_wf h fun x hx => ?_
      rcases List.mem_cons.1 hx with rfl | hx
      · assumption
      · have := hlt x hx; omega
    · split
      · exact Memory.entry_wf hm fun x hx => by have := hlt x hx; omega
      · refine Memory.wf_cons (ih hm) (h.2 c (List.mem_cons_self ..)) fun x hx => ?_
        rcases Memory.write_mem hx with hx | hx
        · simp only [hx]; omega
        · exact hlt x hx

/-- A read after a write to the same index gives the byte written. -/
theorem Memory.read_write_same {m : Memory} (h : m.wf) (i : Nat) (v : Byte) : (m.write i v).read i = v := by
  induction m with
  | nil => exact Memory.entry_read_same (by simp)
  | cons c m ih =>
    have hlt := Memory.wf_head h
    simp only [Memory.write]
    split
    · refine Memory.entry_read_same fun x hx => ?_
      rcases List.mem_cons.1 hx with rfl | hx
      · assumption
      · have := hlt x hx; omega
    · split
      · exact Memory.entry_read_same fun x hx => by have := hlt x hx; omega
      · have : c.1 ≠ i := by omega
        simp only [Memory.read, this, if_false]
        exact ih (Memory.wf_tail h)

/-- A write leaves every other index alone. -/
theorem Memory.read_write_other {i j : Nat} (hj : j ≠ i) (m : Memory) (v : Byte) : (m.write i v).read j = m.read j := by
  induction m with
  | nil => exact Memory.entry_read_other hj
  | cons c m ih =>
    simp only [Memory.write]
    split
    · exact Memory.entry_read_other hj
    · split
      · subst_vars
        rw [Memory.entry_read_other hj]
        simp [Memory.read, Ne.symm hj]
      · simp only [Memory.read, ih]

/-- Two memories in canonical form that read alike are the same data. -/
theorem Memory.eq_of_reads {m n : Memory} (hm : m.wf) (hn : n.wf) (h : ∀ i, m.read i = n.read i) : m = n := by
  induction m generalizing n with
  | nil =>
    cases n with
    | nil => rfl
    | cons d n => exact absurd (by simpa [Memory.read] using (h d.1).symm) (hn.2 d (List.mem_cons_self ..))
  | cons c m ih =>
    cases n with
    | nil => exact absurd (by simpa [Memory.read] using h c.1) (hm.2 c (List.mem_cons_self ..))
    | cons d n =>
      have hcm := Memory.wf_head hm
      have hdn := Memory.wf_head hn
      have hk : c.1 = d.1 := by
        rcases Nat.lt_trichotomy c.1 d.1 with hlt | heq | hlt
        · have hr := h c.1
          rw [Memory.read_below (m := d :: n) (fun x hx => by
            rcases List.mem_cons.1 hx with rfl | hx
            · exact hlt
            · have := hdn x hx; omega)] at hr
          exact absurd (by simpa [Memory.read] using hr) (hm.2 c (List.mem_cons_self ..))
        · exact heq
        · have hr := h d.1
          rw [Memory.read_below (m := c :: m) (fun x hx => by
            rcases List.mem_cons.1 hx with rfl | hx
            · exact hlt
            · have := hcm x hx; omega)] at hr
          exact absurd (by simpa [Memory.read] using hr.symm) (hn.2 d (List.mem_cons_self ..))
      have hv : c.2 = d.2 := by simpa [Memory.read, hk] using h c.1
      have ht : m = n := ih (Memory.wf_tail hm) (Memory.wf_tail hn) fun i => by
        by_cases hi : c.1 = i
        · rw [Memory.read_below (fun x hx => hi ▸ hcm x hx), Memory.read_below (fun x hx => hi ▸ hk ▸ hdn x hx)]
        · have := h i
          rwa [Memory.read, Memory.read, if_neg hi, if_neg (hk ▸ hi)] at this
      rw [ht, Prod.ext hk hv]

end Sys2Proof.Machine
end

