-- ==== Sys2Proof/Laws/State.lean ====
section
/-! SUPPORT. One lemma per field per update of State, each true by definition, so that no later proof unfolds a record
update. -/

namespace Sys2Proof.Machine

variable (s : State)

/-! ### startCommand -/

@[simp] theorem startCommand_cfg : (startCommand s).cfg = s.cfg := rfl
@[simp] theorem startCommand_mode : (startCommand s).mode = s.mode := rfl
@[simp] theorem startCommand_state : (startCommand s).state = s.state := rfl
@[simp] theorem startCommand_buf : (startCommand s).buf = s.buf := rfl
@[simp] theorem startCommand_len : (startCommand s).len = s.len := rfl
@[simp] theorem startCommand_bitc : (startCommand s).bitc = s.bitc := rfl
@[simp] theorem startCommand_cur : (startCommand s).cur = s.cur := rfl
@[simp] theorem startCommand_idle : (startCommand s).idle = s.idle := rfl
@[simp] theorem startCommand_timer : (startCommand s).timer = s.timer := rfl
@[simp] theorem startCommand_pin : (startCommand s).pin = s.pin := rfl
@[simp] theorem startCommand_commands : (startCommand s).commands = s.commands := rfl
@[simp] theorem startCommand_expiries : (startCommand s).expiries = s.expiries := rfl
@[simp] theorem startCommand_lines : (startCommand s).lines = s.lines := rfl
@[simp] theorem startCommand_draws : (startCommand s).draws = s.draws := rfl
@[simp] theorem startCommand_obs : (startCommand s).obs = .silent := rfl

/-! ### emitEvent -/

@[simp] theorem emitEvent_cfg (ev : Event) : (emitEvent ev s).cfg = s.cfg := rfl
@[simp] theorem emitEvent_mode (ev : Event) : (emitEvent ev s).mode = s.mode := rfl
@[simp] theorem emitEvent_state (ev : Event) : (emitEvent ev s).state = s.state := rfl
@[simp] theorem emitEvent_buf (ev : Event) : (emitEvent ev s).buf = s.buf := rfl
@[simp] theorem emitEvent_len (ev : Event) : (emitEvent ev s).len = s.len := rfl
@[simp] theorem emitEvent_bitc (ev : Event) : (emitEvent ev s).bitc = s.bitc := rfl
@[simp] theorem emitEvent_cur (ev : Event) : (emitEvent ev s).cur = s.cur := rfl
@[simp] theorem emitEvent_idle (ev : Event) : (emitEvent ev s).idle = s.idle := rfl
@[simp] theorem emitEvent_timer (ev : Event) : (emitEvent ev s).timer = s.timer := rfl
@[simp] theorem emitEvent_pin (ev : Event) : (emitEvent ev s).pin = s.pin := rfl
@[simp] theorem emitEvent_commands (ev : Event) : (emitEvent ev s).commands = s.commands := rfl
@[simp] theorem emitEvent_expiries (ev : Event) : (emitEvent ev s).expiries = s.expiries := rfl
@[simp] theorem emitEvent_lines (ev : Event) : (emitEvent ev s).lines = s.lines := rfl
@[simp] theorem emitEvent_draws (ev : Event) : (emitEvent ev s).draws = s.draws := rfl
@[simp] theorem emitEvent_obs (ev : Event) : (emitEvent ev s).obs = { s.obs with event := ev } := rfl

/-! ### respond -/

@[simp] theorem respond_cfg (r : Response) : (respond r s).cfg = s.cfg := rfl
@[simp] theorem respond_mode (r : Response) : (respond r s).mode = s.mode := rfl
@[simp] theorem respond_state (r : Response) : (respond r s).state = s.state := rfl
@[simp] theorem respond_buf (r : Response) : (respond r s).buf = s.buf := rfl
@[simp] theorem respond_len (r : Response) : (respond r s).len = s.len := rfl
@[simp] theorem respond_bitc (r : Response) : (respond r s).bitc = s.bitc := rfl
@[simp] theorem respond_cur (r : Response) : (respond r s).cur = s.cur := rfl
@[simp] theorem respond_idle (r : Response) : (respond r s).idle = s.idle := rfl
@[simp] theorem respond_timer (r : Response) : (respond r s).timer = s.timer := rfl
@[simp] theorem respond_pin (r : Response) : (respond r s).pin = s.pin := rfl
@[simp] theorem respond_commands (r : Response) : (respond r s).commands = s.commands := rfl
@[simp] theorem respond_expiries (r : Response) : (respond r s).expiries = s.expiries := rfl
@[simp] theorem respond_lines (r : Response) : (respond r s).lines = s.lines := rfl
@[simp] theorem respond_draws (r : Response) : (respond r s).draws = s.draws := rfl
@[simp] theorem respond_obs (r : Response) : (respond r s).obs = { s.obs with response := r } := rfl

/-! ### flush -/

@[simp] theorem flush_cfg : (flush s).cfg = s.cfg := rfl
@[simp] theorem flush_mode : (flush s).mode = s.mode := rfl
@[simp] theorem flush_state : (flush s).state = s.state := rfl
@[simp] theorem flush_buf : (flush s).buf = s.buf := rfl
@[simp] theorem flush_len : (flush s).len = 0 := rfl
@[simp] theorem flush_bitc : (flush s).bitc = 0 := rfl
@[simp] theorem flush_cur : (flush s).cur = 0 := rfl
@[simp] theorem flush_idle : (flush s).idle = s.idle := rfl
@[simp] theorem flush_timer : (flush s).timer = s.timer := rfl
@[simp] theorem flush_pin : (flush s).pin = s.pin := rfl
@[simp] theorem flush_commands : (flush s).commands = s.commands := rfl
@[simp] theorem flush_expiries : (flush s).expiries = s.expiries := rfl
@[simp] theorem flush_lines : (flush s).lines = s.lines := rfl
@[simp] theorem flush_draws : (flush s).draws = s.draws := rfl
@[simp] theorem flush_obs : (flush s).obs = s.obs := rfl

/-! ### toRx -/

@[simp] theorem toRx_cfg (p : RxPhase) : (toRx p s).cfg = s.cfg := rfl
@[simp] theorem toRx_mode (p : RxPhase) : (toRx p s).mode = s.mode := rfl
@[simp] theorem toRx_state (p : RxPhase) : (toRx p s).state = p.code := rfl
@[simp] theorem toRx_buf (p : RxPhase) : (toRx p s).buf = s.buf := rfl
@[simp] theorem toRx_len (p : RxPhase) : (toRx p s).len = s.len := rfl
@[simp] theorem toRx_bitc (p : RxPhase) : (toRx p s).bitc = s.bitc := rfl
@[simp] theorem toRx_cur (p : RxPhase) : (toRx p s).cur = s.cur := rfl
@[simp] theorem toRx_idle (p : RxPhase) : (toRx p s).idle = s.idle := rfl
@[simp] theorem toRx_timer (p : RxPhase) : (toRx p s).timer = s.timer := rfl
@[simp] theorem toRx_pin (p : RxPhase) : (toRx p s).pin = s.pin := rfl
@[simp] theorem toRx_commands (p : RxPhase) : (toRx p s).commands = s.commands := rfl
@[simp] theorem toRx_expiries (p : RxPhase) : (toRx p s).expiries = s.expiries := rfl
@[simp] theorem toRx_lines (p : RxPhase) : (toRx p s).lines = s.lines := rfl
@[simp] theorem toRx_draws (p : RxPhase) : (toRx p s).draws = s.draws := rfl
@[simp] theorem toRx_obs (p : RxPhase) : (toRx p s).obs = s.obs := rfl

/-! ### toTx -/

@[simp] theorem toTx_cfg (p : TxPhase) : (toTx p s).cfg = s.cfg := rfl
@[simp] theorem toTx_mode (p : TxPhase) : (toTx p s).mode = s.mode := rfl
@[simp] theorem toTx_state (p : TxPhase) : (toTx p s).state = p.code := rfl
@[simp] theorem toTx_buf (p : TxPhase) : (toTx p s).buf = s.buf := rfl
@[simp] theorem toTx_len (p : TxPhase) : (toTx p s).len = s.len := rfl
@[simp] theorem toTx_bitc (p : TxPhase) : (toTx p s).bitc = s.bitc := rfl
@[simp] theorem toTx_cur (p : TxPhase) : (toTx p s).cur = s.cur := rfl
@[simp] theorem toTx_idle (p : TxPhase) : (toTx p s).idle = s.idle := rfl
@[simp] theorem toTx_timer (p : TxPhase) : (toTx p s).timer = s.timer := rfl
@[simp] theorem toTx_pin (p : TxPhase) : (toTx p s).pin = s.pin := rfl
@[simp] theorem toTx_commands (p : TxPhase) : (toTx p s).commands = s.commands := rfl
@[simp] theorem toTx_expiries (p : TxPhase) : (toTx p s).expiries = s.expiries := rfl
@[simp] theorem toTx_lines (p : TxPhase) : (toTx p s).lines = s.lines := rfl
@[simp] theorem toTx_draws (p : TxPhase) : (toTx p s).draws = s.draws := rfl
@[simp] theorem toTx_obs (p : TxPhase) : (toTx p s).obs = s.obs := rfl

/-! ### perform -/

@[simp] theorem perform_cfg (a : Action) : (perform a s).cfg = s.cfg := rfl
@[simp] theorem perform_mode (a : Action) : (perform a s).mode = s.mode := rfl
@[simp] theorem perform_state (a : Action) : (perform a s).state = s.state := rfl
@[simp] theorem perform_buf (a : Action) : (perform a s).buf = s.buf := rfl
@[simp] theorem perform_len (a : Action) : (perform a s).len = s.len := rfl
@[simp] theorem perform_bitc (a : Action) : (perform a s).bitc = s.bitc := rfl
@[simp] theorem perform_cur (a : Action) : (perform a s).cur = s.cur := rfl
@[simp] theorem perform_idle (a : Action) : (perform a s).idle = s.idle := rfl
@[simp] theorem perform_timer (a : Action) : (perform a s).timer = s.timer.after a := rfl
@[simp] theorem perform_pin (a : Action) : (perform a s).pin = s.pin.after a := rfl
@[simp] theorem perform_commands (a : Action) : (perform a s).commands = s.commands := rfl
@[simp] theorem perform_expiries (a : Action) : (perform a s).expiries = s.expiries := rfl
@[simp] theorem perform_lines (a : Action) : (perform a s).lines = s.lines := rfl
@[simp] theorem perform_draws (a : Action) : (perform a s).draws = s.draws := rfl
@[simp] theorem perform_obs (a : Action) : (perform a s).obs = { s.obs with actions := s.obs.actions ++ [a] } := rfl

/-! ### afterExpiry -/

@[simp] theorem afterExpiry_cfg : (afterExpiry s).cfg = s.cfg := rfl
@[simp] theorem afterExpiry_mode : (afterExpiry s).mode = s.mode := rfl
@[simp] theorem afterExpiry_state : (afterExpiry s).state = s.state := rfl
@[simp] theorem afterExpiry_buf : (afterExpiry s).buf = s.buf := rfl
@[simp] theorem afterExpiry_len : (afterExpiry s).len = s.len := rfl
@[simp] theorem afterExpiry_bitc : (afterExpiry s).bitc = s.bitc := rfl
@[simp] theorem afterExpiry_cur : (afterExpiry s).cur = s.cur := rfl
@[simp] theorem afterExpiry_idle : (afterExpiry s).idle = s.idle := rfl
@[simp] theorem afterExpiry_timer : (afterExpiry s).timer = { s.timer with seenExpired := timerExpired s } := rfl
@[simp] theorem afterExpiry_pin : (afterExpiry s).pin = s.pin := rfl
@[simp] theorem afterExpiry_commands : (afterExpiry s).commands = s.commands := rfl
@[simp] theorem afterExpiry_expiries : (afterExpiry s).expiries = s.expiries.tail := rfl
@[simp] theorem afterExpiry_lines : (afterExpiry s).lines = s.lines := rfl
@[simp] theorem afterExpiry_draws : (afterExpiry s).draws = if s.expiries.isEmpty then s.draws + 1 else s.draws := rfl
@[simp] theorem afterExpiry_obs : (afterExpiry s).obs = s.obs := rfl

/-! ### afterPinRead -/

@[simp] theorem afterPinRead_cfg : (afterPinRead s).cfg = s.cfg := rfl
@[simp] theorem afterPinRead_mode : (afterPinRead s).mode = s.mode := rfl
@[simp] theorem afterPinRead_state : (afterPinRead s).state = s.state := rfl
@[simp] theorem afterPinRead_buf : (afterPinRead s).buf = s.buf := rfl
@[simp] theorem afterPinRead_len : (afterPinRead s).len = s.len := rfl
@[simp] theorem afterPinRead_bitc : (afterPinRead s).bitc = s.bitc := rfl
@[simp] theorem afterPinRead_cur : (afterPinRead s).cur = s.cur := rfl
@[simp] theorem afterPinRead_idle : (afterPinRead s).idle = s.idle := rfl
@[simp] theorem afterPinRead_timer : (afterPinRead s).timer = s.timer := rfl
@[simp] theorem afterPinRead_pin : (afterPinRead s).pin = s.pin := rfl
@[simp] theorem afterPinRead_commands : (afterPinRead s).commands = s.commands := rfl
@[simp] theorem afterPinRead_expiries : (afterPinRead s).expiries = s.expiries := rfl
@[simp] theorem afterPinRead_lines : (afterPinRead s).lines = s.lines.tail := rfl
@[simp] theorem afterPinRead_draws : (afterPinRead s).draws = if (readFixed s).isSome then s.draws else s.draws + 1 := rfl
@[simp] theorem afterPinRead_obs : (afterPinRead s).obs = s.obs := rfl

/-! ### issueNext -/

@[simp] theorem issueNext_cfg (w : Word) : (issueNext w s).cfg = s.cfg := rfl
@[simp] theorem issueNext_mode (w : Word) : (issueNext w s).mode = s.mode := rfl
@[simp] theorem issueNext_state (w : Word) : (issueNext w s).state = s.state := rfl
@[simp] theorem issueNext_buf (w : Word) : (issueNext w s).buf = s.buf := rfl
@[simp] theorem issueNext_len (w : Word) : (issueNext w s).len = s.len := rfl
@[simp] theorem issueNext_bitc (w : Word) : (issueNext w s).bitc = s.bitc := rfl
@[simp] theorem issueNext_cur (w : Word) : (issueNext w s).cur = s.cur := rfl
@[simp] theorem issueNext_idle (w : Word) : (issueNext w s).idle = s.idle := rfl
@[simp] theorem issueNext_timer (w : Word) : (issueNext w s).timer = s.timer := rfl
@[simp] theorem issueNext_pin (w : Word) : (issueNext w s).pin = s.pin := rfl
@[simp] theorem issueNext_commands (w : Word) : (issueNext w s).commands = w :: s.commands := rfl
@[simp] theorem issueNext_expiries (w : Word) : (issueNext w s).expiries = s.expiries := rfl
@[simp] theorem issueNext_lines (w : Word) : (issueNext w s).lines = s.lines := rfl
@[simp] theorem issueNext_draws (w : Word) : (issueNext w s).draws = s.draws := rfl
@[simp] theorem issueNext_obs (w : Word) : (issueNext w s).obs = s.obs := rfl

/-! ### The pin and the timer under an action -/

@[simp] theorem Pin.after_dirIn (p : Pin) : p.after .dirIn = { p with dir := .input } := rfl
@[simp] theorem Pin.after_dirOut (p : Pin) : p.after .dirOut = { p with dir := .output } := rfl
@[simp] theorem Pin.after_high (p : Pin) : p.after .high = { p with out := HIGH } := rfl
@[simp] theorem Pin.after_low (p : Pin) : p.after .low = { p with out := LOW } := rfl
@[simp] theorem Pin.after_arm (p : Pin) (d : Nat) : p.after (.arm d) = p := rfl
@[simp] theorem Timer.after_dirIn (t : Timer) : t.after .dirIn = t := rfl
@[simp] theorem Timer.after_dirOut (t : Timer) : t.after .dirOut = t := rfl
@[simp] theorem Timer.after_high (t : Timer) : t.after .high = t := rfl
@[simp] theorem Timer.after_low (t : Timer) : t.after .low = t := rfl
@[simp] theorem Timer.after_arm (t : Timer) (d : Nat) : t.after (.arm d) = ⟨true, d, false⟩ := rfl

/-! ### What the inputs depend on: a new command's observation changes no input -/

@[simp] theorem timerExpired_startCommand : timerExpired (startCommand s) = timerExpired s := rfl
@[simp] theorem pinLevel_startCommand : pinLevel (startCommand s) = pinLevel s := rfl
@[simp] theorem pinLevel_afterExpiry_startCommand :
    pinLevel (afterExpiry (startCommand s)) = pinLevel (afterExpiry s) := rfl
@[simp] theorem pinLevel_arm (d : Nat) : pinLevel (perform (.arm d) s) = pinLevel s := rfl

end Sys2Proof.Machine
end

