-- ==== Sys2Proof/Laws/Ops.lean ====
section
/-! SUPPORT. One lemma per shared operation, saying once everything it can do. -/

namespace Sys2Proof.Machine

/-! ### Sequencing -/

@[simp] theorem andThen_ok {α β : Type} (a : α) (k : α → Result β) : andThen (.next a) k = k a := rfl
@[simp] theorem andThen_fault {α β : Type} (r : Fault) (k : α → Result β) : andThen (.fault r) k = .fault r := rfl
@[simp] theorem andThen_refused {α β : Type} (r : Refusal) (k : α → Result β) :
    andThen (.refused r) k = .refused r := rfl

theorem andThen_next {α β : Type} {o : Result α} {k : α → Result β} {b : β} (h : andThen o k = .next b) :
    ∃ a, o = .next a ∧ k a = .next b := by
  cases o with
  | next a => exact ⟨a, rfl, h⟩
  | fault r => cases h
  | refused r => cases h

/-! ### Buffer accesses -/

theorem memRead_next {s : State} {i : Nat} {b : Byte} :
    memRead s i = .next b ↔ i < s.len.toNat ∧ i < s.cfg.capacity ∧ b = s.buf.read i := by
  unfold memRead
  by_cases h : i < s.len.toNat
  · by_cases hc : i < s.cfg.capacity <;> simp [h, hc, eq_comm]
  · simp [h]

theorem memRead_ok {s : State} {i : Nat} (h : i < s.len.toNat) (hc : i < s.cfg.capacity) :
    memRead s i = .next (s.buf.read i) := memRead_next.2 ⟨h, hc, rfl⟩

theorem memWrite_next {s t : State} {i : Nat} {v : Byte} :
    memWrite s i v = .next t ↔ i < s.cfg.capacity ∧ t = { s with buf := s.buf.write i v } := by
  unfold memWrite
  by_cases hc : i < s.cfg.capacity <;> simp [hc, eq_comm]

theorem memWrite_ok {s : State} {i : Nat} (h : i < s.cfg.capacity) (v : Byte) :
    memWrite s i v = .next { s with buf := s.buf.write i v } := memWrite_next.2 ⟨h, rfl⟩

/-- A range read answers the bytes of the range, in index order, when the range is valid. -/
theorem memReadRange_ok {s : State} (hcap : s.len.toNat ≤ s.cfg.capacity) {i n : Nat} (h : i + n ≤ s.len.toNat) :
    memReadRange s i n = .next ((List.range' i n).map s.buf.read) := by
  induction n generalizing i with
  | zero => rfl
  | succ n ih =>
    have hr : memRead s i = .next (s.buf.read i) := memRead_ok (by omega) (by omega)
    simp [memReadRange, hr, ih (i := i + 1) (by omega), List.range'_succ]

/-- What a range read answers, it answers of valid indices. -/
theorem memReadRange_next {s : State} {i n : Nat} {bs : List Byte} (h : memReadRange s i n = .next bs) :
    bs = (List.range' i n).map s.buf.read := by
  induction n generalizing i bs with
  | zero => cases h; rfl
  | succ n ih =>
    obtain ⟨b, hb, h⟩ := andThen_next h
    obtain ⟨rest, hrest, h⟩ := andThen_next h
    cases h
    simp [(memRead_next.1 hb).2.2, ih hrest, List.range'_succ]

/-! ### Phase codes -/

@[simp] theorem rxPhaseOf_code (p : RxPhase) : rxPhaseOf p.code = some p := by cases p <;> rfl
@[simp] theorem txPhaseOf_code (p : TxPhase) : txPhaseOf p.code = some p := by cases p <;> rfl

theorem rxPhaseOf_eq_some {c : BitVec 4} {p : RxPhase} : rxPhaseOf c = some p ↔ c = p.code := by
  constructor
  · intro h
    unfold rxPhaseOf at h
    repeat' split at h
    all_goals cases h
    all_goals assumption
  · rintro rfl; exact rxPhaseOf_code p

theorem txPhaseOf_eq_some {c : BitVec 4} {p : TxPhase} : txPhaseOf c = some p ↔ c = p.code := by
  constructor
  · intro h
    unfold txPhaseOf at h
    repeat' split at h
    all_goals cases h
    all_goals assumption
  · rintro rfl; exact txPhaseOf_code p

/-- Receive and transmit codes are disjoint: bit 3 tells them apart (10_state R22). -/
theorem rx_code_msb (p : RxPhase) : p.code.getLsbD 3 = false := by cases p <;> rfl
theorem tx_code_msb (p : TxPhase) : p.code.getLsbD 3 = true := by cases p <;> rfl

/-! ### Bits -/

theorem bitLevel_eq (b : Byte) (k : Nat) : bitLevel b k = b.getLsbD k := by
  unfold bitLevel
  have h : ((b >>> k) &&& 1#8) = if b.getLsbD k then 1#8 else 0#8 := by
    ext j hj
    rcases Nat.eq_zero_or_pos j with rfl | hpos
    · cases hb : b.getLsbD k <;> simp [hb]
    · have : j ≠ 0 := by omega
      cases hb : b.getLsbD k <;> simp [BitVec.getElem_one, this]
  change (((b >>> k) &&& 1#8) == 1#8) = b.getLsbD k
  rw [h]
  cases b.getLsbD k <;> rfl

theorem orSample_getLsbD (acc : Byte) (v : Level) (k j : Nat) (hj : j < 8) :
    (orSample acc v k).getLsbD j = (acc.getLsbD j || (v && decide (j = k))) := by
  unfold orSample
  cases v
  · simp
  · have hb : (1#8 : Byte).getLsbD (j - k) = decide (j - k = 0) := by
      rcases Nat.eq_zero_or_pos (j - k) with h | h
      · simp [h]
      · have : j - k ≠ 0 := by omega
        simp [BitVec.getLsbD_one, this]
    rw [BitVec.getLsbD_or, if_pos rfl, BitVec.getLsbD_shiftLeft, hb]
    by_cases h1 : j < k
    · have : j ≠ k := by omega
      simp [h1, this]
    · by_cases h2 : j = k
      · simp [h2]; omega
      · have : j - k ≠ 0 := by omega
        simp [h2, this]

/-! ### The inputs -/

/-- What a gated phase can do: on a false sample nothing but taking it, on a true one its act. -/
theorem gated_next {act : State → Result State} {s t : State} (h : gated act s = .next t) :
    (timerExpired s = false ∧ t = afterExpiry s) ∨ (timerExpired s = true ∧ act (afterExpiry s) = .next t) := by
  unfold gated at h
  split at h
  · exact .inr ⟨‹_›, h⟩
  · cases h; exact .inl ⟨by simpa using ‹¬timerExpired s = true›, rfl⟩

theorem gated_false {act : State → Result State} {s : State} (h : timerExpired s = false) :
    gated act s = .next (afterExpiry s) := by simp [gated, h]

theorem gated_true {act : State → Result State} {s : State} (h : timerExpired s = true) :
    gated act s = act (afterExpiry s) := by simp [gated, h]

/-- The compound step of 41_transmit R121 has no effect of its own while the armed duration is positive. -/
theorem gatedInArmingPoll_skip {act : State → Result State} {s : State} (h : 0 < s.timer.duration) :
    gatedInArmingPoll act s = .next s := by simp [gatedInArmingPoll, h]

/-- A well-formed configuration arms positive durations (00_scope R8). -/
theorem tBitUs_pos {c : Config} (h : c.wf) : 950 ≤ tBitUs c := by
  have := h.2.2
  unfold tBitUs COMP_US
  omega

theorem lineLevel_nil : lineLevel [] = some HIGH := rfl
theorem lineLevel_one (l : Level) : lineLevel [l] = some l := rfl

/-- Where the spec fixes the level, `Pin.read()` returns it. -/
theorem pinLevel_fixed {s : State} {l : Level} (h : readFixed s = some l) : pinLevel s = l := by simp [pinLevel, h]

end Sys2Proof.Machine
end

