-- ==== Sys2Proof/Laws/RefEnv.lean ====
section
/-! SUPPORT. What the reference environment does: what a block is presented with, what it is left as, one microsecond of two
blocks polled in it, and runs of microseconds. -/

namespace Sys2Proof.Machine

/-- At or past its deadline a block's timer answers true. -/
theorem presented_due {t draws : Nat} {others : List Level} {w : Word} {m : Member} (h : m.deadline ≤ t) :
    presented t draws others w m =
      { m.state with commands := [w], expiries := [true], lines := [others], draws := draws } := by
  simp [presented, h]

/-- Before its deadline it answers false. -/
theorem presented_early {t draws : Nat} {others : List Level} {w : Word} {m : Member} (h : t < m.deadline) :
    presented t draws others w m =
      { m.state with commands := [w], expiries := [false], lines := [others], draws := draws } := by
  simp [presented, Nat.not_le.2 h]

@[simp] theorem settled_period (t : Nat) (m : Member) (s : State) : (settled t m s).period = m.period := rfl
@[simp] theorem settled_deadline (t : Nat) (m : Member) (s : State) :
    (settled t m s).deadline = deadlineAfter t m.deadline s.obs.actions := rfl
@[simp] theorem settled_state (t : Nat) (m : Member) (s : State) :
    (settled t m s).state = { s with commands := [], expiries := [], lines := [] } := rfl

@[simp] theorem driversOf_nil : driversOf [] = [] := rfl
@[simp] theorem driversOf_cons (m : Member) (ms : List Member) :
    driversOf (m :: ms) = m.state.pin.drives.toList ++ driversOf ms := by
  cases h : m.state.pin.drives <;> simp [driversOf, h]

/-- A command that its block answers with a next state, and everything it changes of the environment. -/
theorem RefEnv.issue_next {e : RefEnv} {k : Nat} {w : Word} {m : Member} {s : State} (hm : e.members[k]? = some m)
    (h : step (presented e.time e.draws (driversOf (e.members.eraseIdx k)) w m) = .next s) :
    e.issue k w = .next { e with members := e.members.set k (settled e.time m s), draws := s.draws } := by
  simp only [RefEnv.issue, hm, h, andThen_ok]

/-- One microsecond of two blocks polled in it, with no other command due: the first, then the second, which sees the pin
the first has just driven. -/
theorem RefEnv.tick_pair {e : RefEnv} {a b : Member} {s s' : State} (hm : e.members = [a, b]) (hs : e.schedule = [])
    (ha : a.period = 1) (hb : b.period = 1)
    (h1 : step (presented e.time e.draws (driversOf [b]) (encode .poll) a) = .next s)
    (h2 : step (presented e.time s.draws (driversOf [settled e.time a s]) (encode .poll) b) = .next s') :
    e.tick = .next ⟨e.time + 1, [settled e.time a s, settled e.time b s'], [], s'.draws⟩ := by
  obtain ⟨t, ms, sch, d⟩ := e
  simp only at hm hs h1 h2
  subst hm hs
  have polls : RefEnv.polls ⟨t, [a, b], [], d⟩ = [(0, encode .poll), (1, encode .poll)] := by
    simp [RefEnv.polls, ha, hb, Nat.mod_one]
  have due (slot : Slot) : RefEnv.due ⟨t, [a, b], [], d⟩ slot = [] := rfl
  have i1 := RefEnv.issue_next (e := ⟨t, [a, b], [], d⟩) (k := 0) rfl h1
  have i2 := RefEnv.issue_next (e := ⟨t, [settled t a s, b], [], s.draws⟩) (k := 1) rfl h2
  rw [RefEnv.tick, polls, due, due]
  simp only [List.nil_append, List.append_nil, RefEnv.issueAll]
  rw [i1, andThen_ok]
  refine (congrArg (fun o => andThen (andThen o _) _) i2).trans ?_
  rfl

theorem RefEnv.ticks_one (e : RefEnv) : RefEnv.ticks 1 e = e.tick := by
  simp only [RefEnv.ticks]
  cases e.tick <;> rfl

theorem RefEnv.ticks_add (n k : Nat) (e : RefEnv) :
    RefEnv.ticks (n + k) e = andThen (RefEnv.ticks n e) (RefEnv.ticks k) := by
  induction n generalizing e with
  | zero => simp [RefEnv.ticks]
  | succ n ih =>
    rw [show n + 1 + k = (n + k) + 1 from by omega]
    simp only [RefEnv.ticks]
    cases e.tick with
    | next e' => simpa using ih e'
    | fault r => rfl
    | refused r => rfl

end Sys2Proof.Machine
end

