-- ==== Sys2Proof/Laws/Run.lean ====
section
/-! SUPPORT. Runs, one step at a time, the one induction over them, and that they are the host's runs of this core. -/

namespace Sys2Proof.Machine

theorem run_zero (s : State) : run 0 s = .next s := rfl

theorem run_next {k : Nat} {s t : State} (h : step s = .next t) : run (k + 1) s = run k t := by
  rw [run, h]; rfl

theorem run_fault {k : Nat} {s : State} {r : Fault} (h : step s = .fault r) : run (k + 1) s = .fault r := by
  rw [run, h]; rfl

theorem run_refused {k : Nat} {s : State} {r : Refusal} (h : step s = .refused r) : run (k + 1) s = .refused r := by
  rw [run, h]; rfl

/-- A longer run is a run and then the rest. -/
theorem run_add (j k : Nat) (s : State) : run (j + k) s = andThen (run j s) (run k) := by
  induction j generalizing s with
  | zero => rw [Nat.zero_add]; rfl
  | succ j ih =>
    rw [Nat.add_right_comm]
    cases h : step s with
    | next t => rw [run_next h, run_next h, ih]
    | fault r => rw [run_fault h, run_fault h]; rfl
    | refused r => rw [run_refused h, run_refused h]; rfl

/-- What every step keeps, every run keeps. -/
theorem run_keeps {P : State → Prop} (keep : ∀ s t, P s → step s = .next t → P t) (k : Nat) {s t : State} (hs : P s)
    (h : run k s = .next t) : P t := by
  induction k generalizing s with
  | zero => injection h with h; exact h ▸ hs
  | succ k ih =>
    cases hstep : step s with
    | next s' => exact ih (keep s s' hs hstep) (run_next hstep ▸ h)
    | fault r => rw [run_fault hstep] at h; cases h
    | refused r => rw [run_refused hstep] at h; cases h

/-- The states a run passes: the first is the step's, the rest are those of the rest of the run. -/
theorem statesOf_next {k : Nat} {s t : State} (h : step s = .next t) : statesOf (k + 1) s = t :: statesOf k t := by
  simp only [statesOf, h]

theorem core_run_succ (M : Host.Core) (k : Nat) (s : M.State) :
    M.run (k + 1) s = (match M.step s with
      | .next s' => M.run k s'
      | .fault r => .fault r
      | .refused r => .refused r) := rfl

/-- `run` is the host's run of this core. -/
theorem run_eq_core_run (k : Nat) (s : State) : Host.Core.run Sys2Proof.core k s = run k s := by
  induction k generalizing s with
  | zero => rfl
  | succ k ih =>
    cases h : step s with
    | next t =>
      have hs : Sys2Proof.core.step s = .next t := h
      exact (core_run_succ Sys2Proof.core k s).trans ((by rw [hs] : _ = Sys2Proof.core.run k t).trans
        ((ih t).trans (run_next h).symm))
    | fault r =>
      have hs : Sys2Proof.core.step s = .fault r := h
      exact (core_run_succ Sys2Proof.core k s).trans ((by rw [hs] : _ = .fault r).trans (run_fault h).symm)
    | refused r =>
      have hs : Sys2Proof.core.step s = .refused r := h
      exact (core_run_succ Sys2Proof.core k s).trans ((by rw [hs] : _ = .refused r).trans (run_refused h).symm)

end Sys2Proof.Machine
end

