-- ==== Sys2Proof/Laws/Step.lean ====
section
/-! SUPPORT. What `exec` and `step` are made of: one lemma per arm, the dispatch of POLL, and the inversion of a step. -/

namespace Sys2Proof.Machine

@[simp] theorem exec_reset (s : State) : exec .reset s = execReset s := rfl
@[simp] theorem exec_poll (s : State) : exec .poll s = execPoll s := rfl
@[simp] theorem exec_enq (b : Byte) (s : State) : exec (.enq b) s = execEnq b s := rfl
@[simp] theorem exec_drain (s : State) : exec .drain s = execDrain s := rfl
@[simp] theorem exec_status (s : State) : exec .status s = execStatus s := rfl

theorem isEmpty_eq_true (s : State) : isEmpty s = true ↔ s.len = 0 := by simp [isEmpty]
theorem isFull_eq_true (s : State) : isFull s = true ↔ s.len.toNat = s.cfg.capacity := by simp [isFull]
theorem hasRoom_eq_true (s : State) : hasRoom s = true ↔ s.len.toNat < s.cfg.capacity := by simp [hasRoom]

@[simp] theorem isEmpty_startCommand (s : State) : isEmpty (startCommand s) = isEmpty s := rfl
@[simp] theorem hasRoom_startCommand (s : State) : hasRoom (startCommand s) = hasRoom s := rfl

/-- The check of POLL finds nothing exactly in the states of 10_state R28. -/
theorem brokenInvariant_eq_none {s : State} : brokenInvariant s = none ↔ SpecInvariants s := by
  unfold brokenInvariant
  constructor
  · intro h
    repeat' split at h
    all_goals cases h
    rename_i _ hs hc hb hx hf hg
    have hx' := Decidable.not_not.1 hx
    exact ⟨Decidable.not_not.1 hc, Decidable.not_not.1 hs, Decidable.not_not.1 hb, hx'.1, hx'.2, Decidable.not_not.1 hf,
      Decidable.not_not.1 hg⟩
  · rintro ⟨h1, h2, h3, h4, h5, h6, h7⟩
    have h0 : ¬(s.mode = .sending ∧ isEmpty s = true) := by
      rintro ⟨hm, he⟩
      have := (h3 hm).1
      rw [(isEmpty_eq_true s).1 he] at this
      exact absurd this (by decide)
    rw [if_neg h0, if_neg (not_not_intro h2), if_neg (not_not_intro h1), if_neg (not_not_intro h3),
      if_neg (not_not_intro ⟨h4, h5⟩), if_neg (not_not_intro h6), if_neg (not_not_intro h7)]

/-- The check of POLL does not look at the observation. -/
@[simp] theorem brokenInvariant_startCommand (s : State) : brokenInvariant (startCommand s) = brokenInvariant s := rfl

/-- POLL in a state of 10_state R28: the engine that `mode` selects, or nothing with a full buffer. -/
theorem execPoll_sound {s : State} (h : SpecInvariants s) : execPoll s =
    match s.mode with
    | .sending => txStep (startCommand s)
    | .receiving => if hasRoom s then rxStep (startCommand s) else .next (startCommand s) := by
  unfold execPoll
  simp only [brokenInvariant_startCommand, brokenInvariant_eq_none.2 h]
  rfl

/-- POLL in any other state faults. -/
theorem execPoll_broken {s : State} {why : Broken} (h : brokenInvariant s = some why) :
    execPoll s = .fault (.invariantBroken why) := by
  unfold execPoll
  simp only [brokenInvariant_startCommand, h]

/-- The fault of POLL while Sending with no byte (43_driver_and_host R171); the name of its reason is log 13's. -/
theorem execPoll_sendingEmpty {s : State} (hm : s.mode = .sending) (hl : s.len = 0) :
    execPoll s = .fault (.invariantBroken .sendingEmpty) :=
  execPoll_broken (by unfold brokenInvariant; rw [if_pos ⟨hm, (isEmpty_eq_true s).2 hl⟩])

/-- Everything a POLL that answers a next state has done, in a state of 10_state R28: a transmit phase, a receive phase, or
nothing. -/
theorem execPoll_cases {s t : State} (h : execPoll s = .next t) :
    SpecInvariants s ∧
    ((s.mode = .sending ∧ s.len ≠ 0 ∧ txStep (startCommand s) = .next t) ∨
     (s.mode = .receiving ∧ s.len.toNat < s.cfg.capacity ∧ rxStep (startCommand s) = .next t) ∨
     (s.mode = .receiving ∧ s.cfg.capacity ≤ s.len.toNat ∧ t = startCommand s)) := by
  cases hb : brokenInvariant s with
  | some why => rw [execPoll_broken hb] at h; cases h
  | none =>
    have hi := brokenInvariant_eq_none.1 hb
    refine ⟨hi, ?_⟩
    rw [execPoll_sound hi] at h
    cases hm : s.mode <;> simp only [hm] at h
    · by_cases hr : hasRoom s = true
      · rw [if_pos hr] at h
        exact .inr (.inl ⟨rfl, (hasRoom_eq_true s).1 hr, h⟩)
      · rw [if_neg hr] at h
        cases h
        exact .inr (.inr ⟨rfl, by simpa [hasRoom] using hr, rfl⟩)
    · refine .inl ⟨rfl, fun he => ?_, h⟩
      have := (hi.2.2.1 hm).1
      rw [he] at this
      exact absurd this (by decide)

/-- The transmit phase that a transmit step ran. -/
theorem txStep_cases {s t : State} (h : txStep s = .next t) :
    (s.state = TxPhase.sendStart.code ∧ sendStart s = .next t) ∨
    (s.state = TxPhase.sendData.code ∧ sendData s = .next t) ∨
    (s.state = TxPhase.sendStop.code ∧ sendStop s = .next t) ∨
    (s.state = TxPhase.sendPause.code ∧ sendPause s = .next t) := by
  unfold txStep at h
  split at h
  · exact .inl ⟨txPhaseOf_eq_some.1 ‹_›, h⟩
  · exact .inr (.inl ⟨txPhaseOf_eq_some.1 ‹_›, h⟩)
  · exact .inr (.inr (.inl ⟨txPhaseOf_eq_some.1 ‹_›, h⟩))
  · exact .inr (.inr (.inr ⟨txPhaseOf_eq_some.1 ‹_›, h⟩))
  · cases h

/-- The receive phase that a receive step ran. -/
theorem rxStep_cases {s t : State} (h : rxStep s = .next t) :
    (s.state = RxPhase.recvScan.code ∧ t = recvScan s) ∨
    (s.state = RxPhase.recvValidate.code ∧ recvValidate s = .next t) ∨
    (s.state = RxPhase.recvData.code ∧ recvData s = .next t) ∨
    (s.state = RxPhase.recvStop.code ∧ recvStop s = .next t) ∨
    (s.state = RxPhase.recvPause.code ∧ t = recvPause s) := by
  unfold rxStep at h
  split at h
  · cases h; exact .inl ⟨rxPhaseOf_eq_some.1 ‹_›, rfl⟩
  · exact .inr (.inl ⟨rxPhaseOf_eq_some.1 ‹_›, h⟩)
  · exact .inr (.inr (.inl ⟨rxPhaseOf_eq_some.1 ‹_›, h⟩))
  · exact .inr (.inr (.inr (.inl ⟨rxPhaseOf_eq_some.1 ‹_›, h⟩)))
  · cases h; exact .inr (.inr (.inr (.inr ⟨rxPhaseOf_eq_some.1 ‹_›, rfl⟩)))
  · cases h

/-- Everything a step that answers a next state has done: nothing, with no command pending, or one decoded command. -/
theorem step_cases {s t : State} (h : step s = .next t) :
    s.cfg.wf ∧ ((s.commands = [] ∧ t = s) ∨
      ∃ w rest i, s.commands = w :: rest ∧ decode w = .ok i ∧ exec i { s with commands := rest } = .next t) := by
  unfold step at h
  split at h
  · refine ⟨‹_›, ?_⟩
    cases hc : s.commands with
    | nil => simp only [takeCommand, hc] at h; cases h; exact .inl ⟨rfl, rfl⟩
    | cons w rest =>
      simp only [takeCommand, hc] at h
      cases hd : decode w with
      | error e => simp [hd] at h
      | ok i => rw [hd] at h; exact .inr ⟨w, rest, i, rfl, hd, h⟩
  · cases h

end Sys2Proof.Machine
end

