-- ==== Sys2Proof/Tests/Slice0.lean ====
section
/-! SUPPORT. The model's own tests: well-formedness refuses ill-formed terms, the words of 30_encoding decode, single steps
of the vectors of 95_test_vectors (named in each docstring), and a witness for the hypotheses of every statement. -/

namespace Sys2Proof.Tests

open Sys2Proof.Machine

/-! ### Helpers -/

/-- A state as 95_test_vectors writes one, in its reference configuration, with the timer armed, the pin as `mode` has
it, and two answers of each input to come. -/
def sample (mode : Mode) (state : BitVec 4) (len : Byte) (bitc : BitVec 4) (cur : Byte) (idle : Nat) (bytes : List Byte)
    (exp : Bool) (lvl : Level) : State :=
  { State.reset with
    mode := mode, state := state, len := len, bitc := bitc, cur := cur, idle := idle
    buf := bytes.zipIdx.map (fun b => (b.2, b.1))
    timer := ⟨true, 1950, false⟩
    pin := ⟨match mode with
      | .receiving => .input
      | .sending => .output, HIGH⟩
    expiries := [exp, exp], lines := [[lvl], [lvl]] }

/-- The columns of a vector after its step: state, `len`, `bitc`, `cur`, `idle`, response, actions, event, STATUS. -/
structure Shown where
  state : BitVec 4
  len : Byte
  bitc : BitVec 4
  cur : Byte
  idle : Nat
  obs : Observation
  status : Word
deriving DecidableEq, Repr

/-- What a command showed, if it answered a next state. -/
def shown : Result State → Option Shown
  | .next t => some ⟨t.state, t.len, t.bitc, t.cur, t.idle, t.obs, statusOf t⟩
  | .fault _ => none
  | .refused _ => none

/-- A silent or acting step of POLL with no response. -/
def did (actions : List Action) (event : Event) : Observation := ⟨.nothing, actions, event⟩

/-- The fault of a step, if it faulted. -/
def faultOf : Result State → Option Fault
  | .next _ => none
  | .fault r => some r
  | .refused _ => none

/-- The refusal of a step, if it was refused. -/
def refusalOf : Result State → Option Refusal
  | .next _ => none
  | .fault _ => none
  | .refused r => some r

/-- Whether a step answered a next state. -/
def answers (o : Result State) : Bool := (shown o).isSome

/-! ### Well-formedness: a smoke test for each check -/

/-- 00_scope R8, 93 I10: each bound of `cfg_wf`, met and missed. -/
theorem test_config_wf : Config.wf ⟨1, 0, 1⟩ ∧ Config.wf ⟨255, 0, 1⟩ ∧
    ¬Config.wf ⟨0, 16, 2⟩ ∧ ¬Config.wf ⟨256, 16, 2⟩ ∧ ¬Config.wf ⟨4, 16, 0⟩ := by decide

/-- 30_encoding R80: an ENQ operand is 0 to 255. -/
theorem test_operand_range : operandInRange 0 ∧ operandInRange 255 ∧ ¬operandInRange 256 := by decide

/-- 30_encoding R80: the lines an assembler refuses. -/
theorem test_asm_wf : (AsmLine.enq 255).wf = true ∧ (AsmLine.enq 256).wf = false ∧ (AsmLine.polln 1).wf = true ∧
    (AsmLine.polln 0).wf = false ∧ (AsmLine.enqs [255, 256]).wf = false ∧ (AsmLine.enqs []).wf = false := by decide

/-- Every term of `Instr` is well formed, the largest operand included. -/
theorem test_instr_wf : (Instr.enq 0xFF).wf = true ∧ Instr.reset.wf = true := by decide

/-- The buffer's canonical form refuses an unordered list, a repeated index, and an entry that equals an unlisted byte. -/
theorem test_memory_wf : Memory.wf [(0, 1), (2, 3)] ∧ ¬Memory.wf [(2, 3), (0, 1)] ∧ ¬Memory.wf [(1, 2), (1, 3)] ∧
    ¬Memory.wf [(0, 0)] := by decide

/-- A step refuses each ill-formed configuration by name (60_exceptions R207). -/
theorem test_config_refused :
    refusalOf (step (State.powerOn ⟨0, 16, 2⟩)) = some .configInvalid ∧
    refusalOf (step (State.powerOn ⟨256, 16, 2⟩)) = some .configInvalid ∧
    refusalOf (step (State.powerOn ⟨4, 16, 0⟩)) = some .configInvalid := by decide

/-! ### Decode: words written out from 30_encoding R74 and R75 -/

theorem test_decode_reset : decode 0b0000_0000_00000000#16 = .ok .reset := rfl
theorem test_decode_poll : decode 0b0001_0000_00000000#16 = .ok .poll := rfl
theorem test_decode_enq : decode 0b0010_0000_01000001#16 = .ok (.enq 0b01000001#8) := rfl
theorem test_decode_drain : decode 0b0011_0000_00000000#16 = .ok .drain := rfl
theorem test_decode_status : decode 0b0100_0000_00000000#16 = .ok .status := rfl

/-- 30_encoding R77: RSV ≠ 0, IMM8 ≠ 0 on a word other than ENQ, and OP unassigned. -/
theorem test_decode_illegal : decode 0b0010_0001_01000001#16 = .error .rsvNotZero ∧
    decode 0b0100_0000_00010000#16 = .error .imm8NotZero ∧ decode 0b0101_0000_00000000#16 = .error .opUnassigned :=
  ⟨rfl, rfl, rfl⟩

/-- The host's view of the decoder, and an illegal word refused by `step` (43_driver_and_host R176). -/
theorem test_table_word : decodeTableWord 16 0x2041 = some (.enq 0x41) ∧ decodeTableWord 16 0x2141 = none ∧
    refusalOf (step (State.reset.withFetchWord 16 0x5000)) = some (.illegalCommand 0x5000#16) := by decide

/-- 30_encoding R80: a line with a comment, a hexadecimal and a decimal literal. -/
theorem test_assemble_text :
    assembleText ["ENQS 0x41, 66 ; two bytes".toList, "POLLN 2".toList, "; none".toList, "STATUS".toList] =
      some [0x2041#16, 0x2042#16, 0x1000#16, 0x1000#16, 0x4000#16] ∧
    assembleText ["ENQ 256".toList] = none ∧ assembleText ["ENQ".toList] = none := by decide

/-- 95_test_vectors P1: an annotated POLL is the POLL word; the braces are written by their codes. -/
theorem test_assemble_annotated :
    let note := Char.ofNat 123 :: "exp=1".toList ++ [Char.ofNat 125]
    assembleText ["POLL ".toList ++ note ++ " ; SendStop".toList, "POLLN 2 ".toList ++ note] =
      some [0x1000#16, 0x1000#16, 0x1000#16] ∧
    assembleText ["ENQ 0x41 ".toList ++ note] = none := by decide

/-! ### Steps of 95_test_vectors -/

/-- H-17: RESET in the middle of a transmission. -/
theorem test_reset : shown (exec .reset (sample .sending 0x9 2 5 1 3 [1, 2] true HIGH)) =
    some ⟨0x0, 0, 0, 0, 0, did [.dirIn] .none, 0x0040#16⟩ := by decide

/-- H-15 and H-16's field FULL: the STATUS words. -/
theorem test_status : shown (exec .status (sample .sending 0xB 3 8 1 0 [1, 2, 3] true HIGH)) =
    some ⟨0xB, 3, 8, 1, 0, ⟨.statusWord 0x031B#16, [], .none⟩, 0x031B#16⟩ ∧
    statusOf { sample .receiving 0x4 1 8 0x42 0 [0x42] true HIGH with cfg := ⟨1, 16, 2⟩ } = 0x0124#16 := by decide

/-- H-12: DRAIN in the middle of a frame keeps the cursors. -/
theorem test_drain_receiving : shown (exec .drain (sample .receiving 0x2 1 3 5 0 [0x41] true HIGH)) =
    some ⟨0x2, 0, 3, 5, 0, ⟨.drained 1 [0x41], [], .none⟩, 0x0042#16⟩ := by decide

/-- H-13: DRAIN while Sending returns nothing. -/
theorem test_drain_sending : shown (exec .drain (sample .sending 0x9 2 3 0 0 [0x41, 0x42] true HIGH)) =
    some ⟨0x9, 2, 3, 0, 0, ⟨.drained 0 [], [], .none⟩, 0x0219#16⟩ := by decide

/-- H-2 and H-7: ENQ starts a transmission with a zero byte, keeping `idle`; ENQ appends while Sending. -/
theorem test_enq_accepts :
    shown (exec (.enq 0) (sample .receiving 0x0 0 8 0x42 3 [] true HIGH)) =
      some ⟨0x8, 1, 0, 0, 3, ⟨.enqueued .accept, [], .none⟩, 0x0118#16⟩ ∧
    shown (exec (.enq 0x42) (sample .sending 0x9 1 4 0 0 [0x41] true HIGH)) =
      some ⟨0x9, 2, 4, 0, 0, ⟨.enqueued .accept, [], .none⟩, 0x0219#16⟩ := by decide

/-- H-3 and H-8: BUSY with undrained bytes, FULL with a full buffer. -/
theorem test_enq_rejects :
    shown (exec (.enq 0x41) (sample .receiving 0x0 1 0 0 0 [0x42] true HIGH)) =
      some ⟨0x0, 1, 0, 0, 0, ⟨.enqueued .busy, [], .enqBusy 0x41⟩, 0x0100#16⟩ ∧
    shown (exec (.enq 0x55) (sample .sending 0x9 4 4 0 0 [1, 2, 3, 4] true HIGH)) =
      some ⟨0x9, 4, 4, 0, 0, ⟨.enqueued .full, [], .enqFull 0x55⟩, 0x0439#16⟩ := by decide

/-- TX-2, TX-8, TX-10, TX-13 and TX-14: a POLL in each transmit phase. -/
theorem test_poll_sending :
    shown (exec .poll (sample .sending 0x8 2 8 1 0 [0x41, 0x42] true HIGH)) =
      some ⟨0x9, 2, 0, 1, 0, did [.low, .arm 1950] .none, 0x0219#16⟩ ∧
    shown (exec .poll (sample .sending 0x9 1 7 0 0 [0x7F] true HIGH)) =
      some ⟨0xA, 1, 8, 0, 0, did [.arm 1950, .low] .none, 0x011A#16⟩ ∧
    shown (exec .poll (sample .sending 0xA 1 8 0 0 [0x41] true HIGH)) =
      some ⟨0xB, 1, 8, 0, 0, did [.high, .arm 1950] .none, 0x011B#16⟩ ∧
    shown (exec .poll (sample .sending 0xB 2 8 0 0 [0x41, 0x42] true HIGH)) =
      some ⟨0x8, 2, 8, 1, 0, did [] .none, 0x0218#16⟩ ∧
    shown (exec .poll (sample .sending 0xB 2 8 1 0 [0x41, 0x42] true HIGH)) =
      some ⟨0x0, 0, 0, 0, 0, did [.dirIn] (.txDone 2), 0x0040#16⟩ := by decide

/-- RX-3, RX-6, RX-10, RX-13, RX-18, RX-19 and RX-21: a POLL in each receive phase, and with a full buffer. -/
theorem test_poll_receiving :
    shown (exec .poll (sample .receiving 0x0 0 0 0 7 [] true LOW)) =
      some ⟨0x1, 0, 0, 0, 0, did [.arm 950] .none, 0x0041#16⟩ ∧
    shown (exec .poll (sample .receiving 0x0 2 8 0x42 16 [0x41, 0x42] true HIGH)) =
      some ⟨0x0, 0, 0, 0, 0, did [] .idleTimeout, 0x0040#16⟩ ∧
    shown (exec .poll (sample .receiving 0x1 1 0 0 0 [0x41] true HIGH)) =
      some ⟨0x0, 0, 0, 0, 0, did [] .startInvalid, 0x0040#16⟩ ∧
    shown (exec .poll (sample .receiving 0x2 0 6 2 0 [] true HIGH)) =
      some ⟨0x2, 0, 7, 0x42, 0, did [.arm 1950] .none, 0x0042#16⟩ ∧
    shown (exec .poll (sample .receiving 0x3 3 8 0x44 0 [1, 2, 3] true HIGH)) =
      some ⟨0x4, 4, 8, 0x44, 0, did [] (.commit 0x44 3), 0x0424#16⟩ ∧
    shown (exec .poll (sample .receiving 0x3 0 8 0xFF 0 [] true LOW)) =
      some ⟨0x4, 0, 8, 0xFF, 0, did [] (.stopMissing 0xFF), 0x0044#16⟩ ∧
    shown (exec .poll (sample .receiving 0x4 4 8 0x44 0 [1, 2, 3, 4] true HIGH)) =
      some ⟨0x4, 4, 8, 0x44, 0, did [] .none, 0x0424#16⟩ := by decide

/-- H-19 to H-22: the unreachable states that fault. -/
theorem test_poll_faults :
    faultOf (exec .poll (sample .sending 0x8 0 0 0 0 [] true HIGH)) = some (.invariantBroken .sendingEmpty) ∧
    faultOf (exec .poll (sample .receiving 0x5 0 0 0 0 [] true HIGH)) = some (.invariantBroken .reservedState) ∧
    faultOf (exec .poll (sample .receiving 0x9 1 0 0 0 [1] true HIGH)) = some (.invariantBroken .stateIllegalForMode) ∧
    faultOf (exec .poll (sample .sending 0x0 1 0 0 0 [1] true HIGH)) = some (.invariantBroken .stateIllegalForMode) := by
  decide

/-- 10_state R28: a POLL faults on each other invariant broken, and on a broken `state` with a full buffer too. -/
theorem test_poll_faults_on_invariants :
    faultOf (exec .poll (sample .receiving 0x5 4 8 0 0 [1, 2, 3, 4] true HIGH)) = some (.invariantBroken .reservedState) ∧
    faultOf (exec .poll (sample .receiving 0x9 4 0 0 0 [1, 2, 3, 4] true HIGH)) =
      some (.invariantBroken .stateIllegalForMode) ∧
    faultOf (exec .poll (sample .receiving 0x0 0 9 0 0 [] true HIGH)) = some (.invariantBroken .counterOutOfRange) ∧
    faultOf (exec .poll (sample .receiving 0x0 0 0 0 17 [] true HIGH)) = some (.invariantBroken .counterOutOfRange) ∧
    faultOf (exec .poll (sample .sending 0xB 1 8 1 0 [1] true HIGH)) = some (.invariantBroken .readPastLen) ∧
    faultOf (exec .poll (sample .receiving 0x2 0 3 8 0 [] true HIGH)) = some (.invariantBroken .bitCursor) ∧
    faultOf (exec .poll (sample .receiving 0x3 4 8 0 0 [1, 2, 3, 4] true HIGH)) = some (.invariantBroken .fullNotInPause) ∧
    faultOf (exec .poll { sample .receiving 0x1 0 0 0 0 [] true HIGH with timer := ⟨false, 0, false⟩ }) =
      some (.invariantBroken .neverArmed) := by decide

/-- The frame of 0x41 of 95_test_vectors S0b, and the buffer's form after a write of an unlisted byte's value. -/
theorem test_frame_and_memory : frameOf 0x41 = [LOW, HIGH, LOW, LOW, LOW, LOW, LOW, HIGH, LOW, HIGH] ∧
    Memory.write [(0, 1), (1, 2)] 0 0 = [(1, 2)] ∧ Memory.write [(1, 2)] 0 7 = [(0, 7), (1, 2)] := by decide

/-! ### A witness for the hypotheses of each statement, one for each of its clauses -/

/-- `s` with commands pending. -/
def issued (s : State) (cs : List Word) : State := { s with commands := cs }

/-- A block that scans with an empty buffer. -/
def scanning (lvl : Level) : State := sample .receiving 0x0 0 0 0 0 [] true lvl

/-- The event of a command that answered. -/
def eventOf (o : Result State) : Option Event := (shown o).map (fun t => t.obs.event)

theorem witness_WordDecodesToItsOneRow :
    ∃ r, r ∈ opcodeRows ∧ 0x20FF#16 &&& r.mask = r.pattern ∧ r.mnemonic = "ENQ" :=
  ⟨opcodeRows[2], List.getElem_mem _, by decide⟩

theorem witness_IllegalWordsAreRefused :
    ∃ rest, (issued State.reset [0x4FFF#16]).cfg.wf ∧ (issued State.reset [0x4FFF#16]).commands = 0x4FFF#16 :: rest :=
  ⟨[], by decide⟩

theorem witness_AssemblerExpandsLines : (255 : Nat) ≤ 255 ∧ 255 < (256 : Nat) ∧ [0, 255] ≠ ([] : List Nat) ∧
    (∀ b ∈ [0, 255], b ≤ 255) ∧ (∃ b ∈ [1, 256], 255 < b) ∧ (1 : Nat) ≤ 1 := by decide

theorem witness_StepRunsDecodedCommand : ∃ rest, (issued State.reset [0x20FF#16]).cfg.wf ∧
    (issued State.reset [0x20FF#16]).commands = 0x20FF#16 :: rest ∧ decode 0x20FF#16 = .ok (.enq 0xFF) :=
  ⟨[], by decide, rfl, rfl⟩

theorem witness_NoCommandChangesNothing : State.reset.cfg.wf ∧ State.reset.commands = [] := by decide

theorem witness_IllFormedConfigIsRefused : (State.powerOn ⟨255, 0, 1⟩).cfg.wf := by decide

theorem witness_DurationsOfTheConfig : Config.wf ⟨1, 0, 1⟩ := by decide

theorem witness_NoCommandWritesTheConfig :
    (scanning LOW).cfg.wf ∧ ∃ t, exec .poll (scanning LOW) = .next t := ⟨by decide, _, rfl⟩

theorem witness_ResetReinitialises : (sample .sending 0x9 2 5 1 3 [1, 2] true HIGH).cfg.wf := by decide

theorem witness_PowerOnIsTheStateAfterReset : Config.wf ⟨255, 0, 1⟩ := by decide

theorem witness_DrainReturnsTheValidBytes :
    ((sample .receiving 0x4 4 8 0x44 0 [1, 2, 3, 4] true HIGH).len.toNat ≤ 4 ∧
      (sample .receiving 0x4 4 8 0x44 0 [1, 2, 3, 4] true HIGH).cfg.capacity = 4 ∧
      ∃ t, exec .drain (sample .receiving 0x4 4 8 0x44 0 [1, 2, 3, 4] true HIGH) = .next t) ∧
    ((sample .sending 0x9 1 3 0 0 [1] true HIGH).len.toNat ≤ (sample .sending 0x9 1 3 0 0 [1] true HIGH).cfg.capacity ∧
      (sample .sending 0x9 1 3 0 0 [1] true HIGH).mode = .sending) :=
  ⟨⟨by decide, by decide, _, rfl⟩, by decide⟩

/-- The append at `len = C - 1`, the full buffer, the start, and the two ways to be busy. -/
theorem witness_EnqAcceptsOrRejects :
    let a := sample .sending 0x9 3 4 0 0 [1, 2, 3] true HIGH
    let f := sample .sending 0x9 4 4 0 0 [1, 2, 3, 4] true HIGH
    let b := sample .receiving 0x0 1 0 0 0 [1] true HIGH
    let v := sample .receiving 0x1 0 0 0 0 [] true HIGH
    a.cfg.wf ∧ (a.mode = .sending ∧ a.len.toNat < a.cfg.capacity) ∧ (f.mode = .sending ∧ f.cfg.capacity ≤ f.len.toNat) ∧
    ((scanning HIGH).mode = .receiving ∧ (scanning HIGH).state = 0x0 ∧ (scanning HIGH).len = 0) ∧
    (b.mode = .receiving ∧ ¬(b.state = 0x0 ∧ b.len = 0)) ∧ (v.mode = .receiving ∧ ¬(v.state = 0x0 ∧ v.len = 0)) := by
  decide

/-- ENQ stores at `len`; every other index, the neighbour included, is one that it does not store to. -/
theorem witness_BufferChangesOnlyWhereStored :
    let s := sample .sending 0x9 3 4 0 0 [1, 2, 3] true HIGH
    s.cfg.wf ∧ (∃ t, exec (.enq 9) s = .next t) ∧ storeIndex (.enq 9) s ≠ some 2 ∧
      s.buf.wf ∧ storeIndex (.enq 9) s = some 3 := ⟨by decide, ⟨_, rfl⟩, by decide, by decide, by decide⟩

/-- An idle block with stale cursors and a stale byte, and one byte more than it can hold. -/
theorem witness_EnqueuedBytesStandInOrder :
    let s := issued (sample .receiving 0x0 0 8 0x42 3 [9] true HIGH) [0x2001#16, 0x2002#16, 0x2003#16, 0x2004#16, 0x2005#16]
    s.cfg.wf ∧ Inv s ∧ s.mode = .receiving ∧ s.state = 0x0 ∧ s.len = 0 ∧ ([1, 2, 3, 4, 5] : List Byte) ≠ [] ∧
    s.commands = [1, 2, 3, 4, 5].map (fun b => encode (.enq b)) ++ [] := by decide

theorem witness_PollDispatchesByMode :
    let e := sample .sending 0x8 0 0 0 0 [] true HIGH
    let x := sample .sending 0x8 1 0 0 0 [1] true HIGH
    let r := sample .receiving 0x0 3 0 0 0 [1, 2, 3] true HIGH
    let f := sample .receiving 0x4 4 8 4 0 [1, 2, 3, 4] true HIGH
    (e.mode = .sending ∧ e.len = 0) ∧ (SpecInvariants x ∧ x.mode = .sending) ∧
    (SpecInvariants r ∧ r.mode = .receiving ∧ r.len.toNat < r.cfg.capacity) ∧
    (SpecInvariants f ∧ f.mode = .receiving ∧ f.cfg.capacity ≤ f.len.toNat) :=
  ⟨by decide, by decide, by decide, by decide⟩

/-- Codes 0 and 4, 5, 7, 12 and 15 while Sending; 8 and 11, 5, 7, 12 and 15 while Receiving, with room and without. -/
theorem witness_PollFaultsOnAnIllegalState :
    let x := fun c => sample .sending c 1 0 0 0 [1] true HIGH
    let r := fun n c => sample .receiving c n 0 0 0 [1, 2, 3, 4] true HIGH
    ((x 0).mode = .sending ∧ (x 0).len ≠ 0 ∧ (x 0).state.toNat ≤ 4 ∧ (x 4).state.toNat ≤ 4 ∧
      (∀ c ∈ [5, 7, 12, 15], (5 ≤ (x c).state.toNat ∧ (x c).state.toNat ≤ 7) ∨ 12 ≤ (x c).state.toNat)) ∧
    (∀ n ∈ [3, 4], (r n 8).mode = .receiving ∧
      (∀ c ∈ [8, 11], 8 ≤ (r n c).state.toNat ∧ (r n c).state.toNat ≤ 11) ∧
      (∀ c ∈ [5, 7, 12, 15], (5 ≤ (r n c).state.toNat ∧ (r n c).state.toNat ≤ 7) ∨ 12 ≤ (r n c).state.toNat)) := by
  decide

/-- A state that breaks INV5 and one that breaks none. -/
theorem witness_PollFaultsExactlyOnBrokenInvariants :
    let s := sample .receiving 0x2 0 3 8 0 [] true HIGH
    s.cfg.wf ∧ (∃ why, exec .poll s = .fault (.invariantBroken why)) ∧ SpecInvariants (scanning HIGH) :=
  ⟨by decide, ⟨_, rfl⟩, by decide⟩

theorem witness_GatedPollWithoutExpirySkips :
    let s := sample .sending 0x9 1 3 0 0 [0x41] false HIGH
    SpecInvariants s ∧ isGated s.state = true ∧ timerExpired s = false := by decide

/-- A true sample; an arm; and a POLL in RecvPause, which arms nothing, after a true sample. -/
theorem witness_TimerAnswersAreSticky :
    let p := { sample .receiving 0x4 1 8 1 0 [1] false HIGH with timer := ⟨true, 1950, true⟩ }
    timerExpired (scanning HIGH) = true ∧
    ((scanning LOW).cfg.wf ∧ ∃ t, exec .poll (scanning LOW) = .next t ∧ .arm 950 ∈ t.obs.actions) ∧
    (p.cfg.wf ∧ p.timer.seenExpired = true ∧ ∃ t, exec .poll p = .next t ∧ t.obs.actions = []) :=
  ⟨by decide, ⟨by decide, _, rfl, by decide⟩, by decide, by decide, _, rfl, by decide⟩

theorem witness_PinReadsTheLine :
    let s := fun ls => { scanning HIGH with lines := ls }
    (s []).pin.dir = .input ∧ (s []).lines = [] ∧ (s [[]]).lines = [] :: [] ∧ (s [[LOW]]).lines = [LOW] :: [] := by
  decide

/-- The first byte and a later one. -/
theorem witness_SendStartDrivesTheStartBit :
    let a := sample .sending 0x8 1 0 0 0 [0x41] true HIGH
    let b := sample .sending 0x8 2 8 1 0 [0x41, 0x42] true HIGH
    (a.cfg.wf ∧ SpecInvariants a ∧ a.mode = .sending ∧ a.state = 0x8 ∧ a.cur = 0) ∧
    (b.cfg.wf ∧ SpecInvariants b ∧ b.mode = .sending ∧ b.state = 0x8 ∧ b.cur ≠ 0) :=
  ⟨by decide, by decide⟩

/-- No expiry; the last byte of a full buffer; a cursor at `len`. -/
theorem witness_SendDataDrivesTheNextBit :
    let s := fun cur exp => sample .sending 0x9 4 7 cur 0 [1, 2, 3, 4] exp HIGH
    (∀ exp ∈ [true, false], SpecInvariants (s 3 exp) ∧ (s 3 exp).mode = .sending ∧ (s 3 exp).state = 0x9 ∧
      timerExpired (s 3 exp) = exp) ∧
    (s 4 true).mode = .sending ∧ (s 4 true).state = 0x9 ∧ (s 4 true).len.toNat ≤ (s 4 true).cur.toNat := by decide

theorem witness_SendStopDrivesTheStopBit : ∀ exp ∈ [true, false],
    let s := sample .sending 0xA 1 8 0 0 [0x41] exp HIGH
    SpecInvariants s ∧ s.mode = .sending ∧ s.state = 0xA ∧ timerExpired s = exp := by decide

/-- No expiry; the byte before the last; the last; a cursor at `len`, for the engine's step. -/
theorem witness_SendPauseEndsTheByte :
    let s := fun cur exp => sample .sending 0xB 2 8 cur 0 [0x41, 0x42] exp HIGH
    (∀ cur ∈ [0, 1], ∀ exp ∈ [true, false], SpecInvariants (s cur exp) ∧ (s cur exp).mode = .sending ∧
      (s cur exp).state = 0xB ∧ timerExpired (s cur exp) = exp) ∧
    (s 0 true).cur.toNat + 1 < (s 0 true).len.toNat ∧ (s 1 true).len.toNat ≤ (s 1 true).cur.toNat + 1 ∧
    (s 2 true).state = 0xB ∧ timerExpired (s 2 true) = true ∧ (s 2 true).len.toNat ≤ (s 2 true).cur.toNat + 1 := by decide

/-- A LOW sample, and a HIGH one with `idle` just below and at IDLE_THRESHOLD. -/
theorem witness_RecvScanDetectsOrCountsIdle :
    let s := fun idle lvl => sample .receiving 0x0 3 8 0 idle [1, 2, 3] true lvl
    (∀ idle ∈ [15, 16], ∀ lvl ∈ [LOW, HIGH], SpecInvariants (s idle lvl) ∧ (s idle lvl).mode = .receiving ∧
      (s idle lvl).len.toNat < (s idle lvl).cfg.capacity ∧ (s idle lvl).state = 0x0 ∧ pinLevel (s idle lvl) = lvl) ∧
    (s 15 HIGH).idle + 1 ≤ (s 15 HIGH).cfg.idleThreshold ∧ (s 16 HIGH).cfg.idleThreshold < (s 16 HIGH).idle + 1 := by
  decide

theorem witness_RecvValidateConfirmsOrFlushes : ∀ exp ∈ [true, false], ∀ lvl ∈ [LOW, HIGH],
    let s := sample .receiving 0x1 3 0 0 0 [1, 2, 3] exp lvl
    SpecInvariants s ∧ s.mode = .receiving ∧ s.len.toNat < s.cfg.capacity ∧ s.state = 0x1 ∧ timerExpired s = exp ∧
      pinLevel (afterExpiry s) = lvl := by decide

theorem witness_RecvDataAssemblesTheNextBit : ∀ exp ∈ [true, false], ∀ bitc ∈ [0, 7],
    let s := sample .receiving 0x2 3 bitc 0 0 [1, 2, 3] exp HIGH
    SpecInvariants s ∧ s.mode = .receiving ∧ s.len.toNat < s.cfg.capacity ∧ s.state = 0x2 ∧ timerExpired s = exp := by decide

theorem witness_RecvStopCommitsOrDiscards :
    (∀ exp ∈ [true, false], ∀ lvl ∈ [LOW, HIGH],
      let s := sample .receiving 0x3 3 8 0x44 0 [1, 2, 3] exp lvl
      SpecInvariants s ∧ s.mode = .receiving ∧ s.len.toNat < s.cfg.capacity ∧ s.state = 0x3 ∧ timerExpired s = exp ∧
        pinLevel (afterExpiry s) = lvl) ∧
    let f := sample .receiving 0x3 4 8 0x44 0 [1, 2, 3, 4] true HIGH
    f.state = 0x3 ∧ f.cfg.capacity ≤ f.len.toNat ∧ timerExpired f = true ∧ pinLevel (afterExpiry f) = HIGH := by
  decide

theorem witness_RecvPauseReturnsToScan :
    let s := sample .receiving 0x4 3 8 0x44 0 [1, 2, 3] true HIGH
    SpecInvariants s ∧ s.mode = .receiving ∧ s.len.toNat < s.cfg.capacity ∧ s.state = 0x4 := by decide

/-- An arm of each duration: a scan, and the last data bit sent. -/
theorem witness_ArmsAreInTheArmingTable :
    let x := sample .sending 0x9 1 7 0 0 [1] true HIGH
    ((scanning LOW).cfg.wf ∧ ∃ t, exec .poll (scanning LOW) = .next t ∧ .arm 950 ∈ t.obs.actions) ∧
    (x.cfg.wf ∧ ∃ t, exec .poll x = .next t ∧ .arm 1950 ∈ t.obs.actions) :=
  ⟨⟨by decide, _, rfl, by decide⟩, by decide, _, rfl, by decide⟩

theorem witness_ActionsPerCommand :
    (scanning LOW).cfg.wf ∧ (∃ t, exec .status (scanning LOW) = .next t) ∧ Instr.status ≠ .poll ∧
    Instr.status ≠ .reset ∧ ∃ t, exec .reset (scanning LOW) = .next t :=
  ⟨by decide, ⟨_, rfl⟩, by decide, by decide, _, rfl⟩

/-- The three writers of `mode`. -/
theorem witness_ModeChangesOnlyByItsWriters :
    let p := sample .sending 0xB 1 8 0 0 [1] true HIGH
    ((scanning HIGH).cfg.wf ∧ ∃ t, exec (.enq 1) (scanning HIGH) = .next t ∧ t.mode ≠ (scanning HIGH).mode) ∧
    (p.cfg.wf ∧ ∃ t, exec .poll p = .next t ∧ t.mode ≠ p.mode) ∧ ∃ t, exec .reset p = .next t ∧ t.mode ≠ p.mode :=
  ⟨⟨by decide, _, rfl, by decide⟩, ⟨by decide, _, rfl, by decide⟩, _, rfl, by decide⟩

/-- A command that raises each event of the statement. -/
theorem witness_EventsHaveTheirCauses :
    (scanning HIGH).cfg.wf ∧
    eventOf (exec .poll (sample .receiving 0x1 0 0 0 0 [] true HIGH)) = some .startInvalid ∧
    eventOf (exec .poll (sample .receiving 0x0 0 0 0 16 [] true HIGH)) = some .idleTimeout ∧
    eventOf (exec .poll (sample .receiving 0x3 0 8 7 0 [] true LOW)) = some (.stopMissing 7) ∧
    eventOf (exec (.enq 5) (sample .sending 0x9 4 0 0 0 [1, 2, 3, 4] true HIGH)) = some (.enqFull 5) ∧
    eventOf (exec (.enq 5) (sample .receiving 0x0 1 0 0 0 [1] true HIGH)) = some (.enqBusy 5) ∧
    eventOf (exec .poll (sample .receiving 0x3 3 8 7 0 [1, 2, 3] true HIGH)) = some (.commit 7 3) ∧
    eventOf (exec .poll (sample .sending 0xB 1 8 0 0 [1] true HIGH)) = some (.txDone 1) := by decide

theorem witness_InputsAreTakenOnlyByPoll :
    (scanning HIGH).cfg.wf ∧ (∃ t, exec .drain (scanning HIGH) = .next t) ∧ Instr.drain ≠ .poll :=
  ⟨by decide, ⟨_, rfl⟩, by decide⟩

theorem witness_InvariantsHoldAtPowerOn : Config.wf ⟨1, 0, 1⟩ := by decide

/-- A step that commits the byte that fills the buffer. -/
theorem witness_EveryStepKeepsTheInvariants :
    let s := issued (sample .receiving 0x3 3 8 0x44 0 [1, 2, 3] true HIGH) [0x1000#16]
    Inv s ∧ ∃ t, step s = .next t := ⟨by decide, _, rfl⟩

theorem witness_EveryCommandCompletes :
    let s := sample .sending 0x9 4 7 3 16 [1, 2, 3, 4] true HIGH
    s.cfg.wf ∧ Inv s := by decide

theorem witness_RunsFromPowerOnKeepInvariantsAndNeverFault :
    let s := booted ⟨1, 0, 1⟩ [0x20FF#16, 0x1000#16] [] []
    s.cfg.wf ∧ ∃ t, run 2 s = .next t := ⟨by decide, _, rfl⟩

/-- Two states that differ in the stale byte at `len`. -/
theorem witness_StaleBytesAreUnobservable :
    let s := sample .receiving 0x0 1 0 0 0 [1, 2] true HIGH
    let t := sample .receiving 0x0 1 0 0 0 [1, 3] true HIGH
    s ≠ t ∧ s.buf.wf ∧ t.buf.wf ∧ SameButStale s t := by
  refine ⟨by decide, by decide, by decide, rfl, ?_⟩
  decide

/-- IDLE_THRESHOLD = 1, two bytes undrained, an idle line. -/
theorem witness_IdleLineFlushesAfterThreshold :
    let s := { sample .receiving 0x0 2 8 7 0 [1, 2] true HIGH with
      cfg := ⟨4, 1, 2⟩, lines := [[], [HIGH]], commands := List.replicate 2 0x1000#16 ++ [0x4000#16] }
    s.cfg.wf ∧ Inv s ∧ s.mode = .receiving ∧ s.state = 0x0 ∧ s.idle = 0 ∧
    s.commands = List.replicate (s.cfg.idleThreshold + 1) (encode .poll) ++ [0x4000#16] ∧
    ∀ ds ∈ s.lines.take (s.cfg.idleThreshold + 1), lineLevel ds = some HIGH := by decide

/-- A sender at the last byte and one at the byte before it. -/
theorem witness_ElevenPollsSendOneFrame : ∀ cur ∈ [0, 1],
    let s := { sample .sending 0x8 2 (if cur = 0 then 0 else 8) cur 0 [0x41, 0x42] true HIGH with
      commands := List.replicate 11 0x1000#16 ++ [0x4000#16], expiries := List.replicate 10 true ++ [false] }
    s.cfg.wf ∧ Inv s ∧ s.mode = .sending ∧ s.state = 0x8 ∧
    s.commands = List.replicate 11 (encode .poll) ++ [0x4000#16] ∧ s.expiries = List.replicate 10 true ++ [false] := by
  decide

/-- A receiver with three bytes and capacity `c`, about to be polled twelve times and to see what `lines` drives. -/
def receiver (c : Nat) (lines : List (List Level)) : State :=
  { sample .receiving 0x0 3 8 7 0 [1, 2, 3] true HIGH with
    cfg := ⟨c, 16, 2⟩, lines := lines ++ [[HIGH]]
    commands := List.replicate 12 0x1000#16 ++ [0x3000#16], expiries := List.replicate 10 true ++ [false] }

/-- A sender of 0x42, about to be polled eleven times. -/
def sender : State :=
  { sample .sending 0x8 1 0 0 0 [0x42] true HIGH with
    commands := List.replicate 11 0x1000#16 ++ [0x4000#16], expiries := List.replicate 10 true ++ [false] }

/-- Room for one byte more, which leaves the buffer full, and room for two. -/
theorem witness_TwelvePollsReceiveOneFrame : ∀ c ∈ [4, 5],
    let s := receiver c ((LOW :: frameOf 0x41).map (fun l => [l]))
    s.cfg.wf ∧ Inv s ∧ s.mode = .receiving ∧ s.state = 0x0 ∧ s.len.toNat < s.cfg.capacity ∧
    s.commands = List.replicate 12 (encode .poll) ++ [0x3000#16] ∧ s.expiries = List.replicate 10 true ++ [false] ∧
    s.lines = (LOW :: frameOf 0x41).map (fun l => [l]) ++ [[HIGH]] := by
  intro c hc
  simp only [List.mem_cons, List.not_mem_nil, or_false] at hc
  rcases hc with rfl | rfl
  · exact ⟨by decide, by decide, rfl, rfl, by decide, rfl, rfl, rfl⟩
  · exact ⟨by decide, by decide, rfl, rfl, by decide, rfl, rfl, rfl⟩

/-- A sender and a receiver that sees the levels it drives. -/
theorem witness_ReceiverOfTheDrivenLevelsCommitsTheByte :
    (sender.cfg.wf ∧ Inv sender ∧ sender.mode = .sending ∧ sender.state = 0x8 ∧
      sender.commands = List.replicate 11 (encode .poll) ++ [0x4000#16] ∧
      sender.expiries = List.replicate 10 true ++ [false]) ∧
    let r := receiver 4 ((drivenLevels 1 sender ++ drivenLevels 10 sender).map Option.toList)
    r.cfg.wf ∧ Inv r ∧ r.mode = .receiving ∧ r.state = 0x0 ∧ r.len.toNat < r.cfg.capacity ∧
      r.commands = List.replicate 12 (encode .poll) ++ [0x3000#16] ∧ r.expiries = List.replicate 10 true ++ [false] ∧
      r.lines = (drivenLevels 1 sender ++ drivenLevels 10 sender).map Option.toList ++ [[HIGH]] :=
  ⟨⟨by decide, by decide, rfl, rfl, rfl, rfl⟩, by decide, by decide, rfl, rfl, by decide, rfl, rfl, rfl⟩

theorem witness_AssemblyUndoesTheFrame :
    [HIGH, LOW, LOW, LOW, LOW, LOW, HIGH, LOW].length = 8 ∧ (7 : Nat) < 8 := by decide

/-- Two blocks on one line, the first about to be reset. -/
def pair : RefEnv := ⟨950, [⟨scanning HIGH, 950, 1⟩, ⟨scanning HIGH, 951, 1⟩], [], 7⟩

theorem witness_BlocksShareNoState : (∃ e, pair.issue 0 0x2041#16 = .next e) ∧ (1 : Nat) ≠ 0 := ⟨⟨_, rfl⟩, by decide⟩

/-- A scan that arms, and a STATUS that does not. -/
theorem witness_RefEnvTimerFollowsTheDeadline : ∀ i ∈ [Instr.poll, Instr.status], ∃ m, pair.members[1]? = some m ∧
    m.state.cfg.wf ∧ m.state.timer.seenExpired = false ∧ ∃ e, pair.issue 1 (encode i) = .next e := by
  intro i hi
  refine ⟨⟨scanning HIGH, 951, 1⟩, rfl, by decide, rfl, ?_⟩
  simp only [List.mem_cons, List.not_mem_nil, or_false] at hi
  rcases hi with rfl | rfl
  · exact ⟨_, rfl⟩
  · exact ⟨_, rfl⟩

/-- A sender of its second byte and a receiver with room for one byte more. -/
theorem witness_PeerOnTheLineReceivesTheByte :
    let a : Member := ⟨sample .sending 0x8 2 8 1 0 [0x41, 0x42] true HIGH, 7, 1⟩
    let b : Member := ⟨sample .receiving 0x0 3 8 7 5 [1, 2, 3] true HIGH, 9, 1⟩
    let e : RefEnv := ⟨950, [a, b], [], 0⟩
    e.members = [a, b] ∧ e.schedule = [] ∧ a.period = 1 ∧ b.period = 1 ∧ a.state.cfg.wf ∧ cfgTimingOk a.state.cfg ∧
    tBitUs b.state.cfg = tBitUs a.state.cfg ∧ b.state.cfg.wf ∧
    Inv a.state ∧ a.state.mode = .sending ∧ a.state.state = 0x8 ∧
    Inv b.state ∧ b.state.mode = .receiving ∧ b.state.state = 0x0 ∧ b.state.len.toNat < b.state.cfg.capacity :=
  ⟨rfl, rfl, rfl, rfl, by decide, by decide, rfl, by decide, by decide, rfl, rfl, by decide, rfl, rfl, by decide⟩

end Sys2Proof.Tests
end

section
/-! PROOFS. The configuration (00_scope R6 to R9): the two durations, and the refusal of one that is not well formed. -/

namespace Sys2Proof.Machine

/-! ### The durations -/

/-- `T_BIT_US = 1000 * T_MS - 50`, stated without the subtraction (00_scope R7). -/
theorem tBitUs_add_comp {c : Config} (h : c.wf) : tBitUs c + 50 = 1000 * c.tMs := by
  obtain ⟨-, -, htms⟩ := h
  unfold tBitUs COMP_US
  omega

theorem cfgTimingOk_iff {c : Config} (h : c.wf) : cfgTimingOk c ↔ 2 ≤ c.tMs := by
  have hbit := tBitUs_add_comp h
  unfold cfgTimingOk tValidateUs TV_US
  omega

/-- Settles O10: the values by computation, the rest from `tBitUs_add_comp`. -/
theorem durationsOfTheConfig : Obligations.DurationsOfTheConfig :=
  ⟨rfl, rfl, rfl, rfl, fun _ h => ⟨tBitUs_add_comp h, cfgTimingOk_iff h⟩⟩

/-! ### No command is refused once it is decoded -/

/-- An operation that answers or faults, and is never refused. -/
def NeverRefuses {α : Type} (o : Result α) : Prop := ∀ r, o ≠ .refused r

theorem neverRefuses_next {α : Type} (a : α) : NeverRefuses (.next a : Result α) := fun _ h => by cases h

theorem neverRefuses_fault {α : Type} (f : Fault) : NeverRefuses (.fault f : Result α) := fun _ h => by cases h

theorem neverRefuses_ite {α : Type} {c : Prop} [Decidable c] {o o' : Result α} (h : NeverRefuses o)
    (h' : NeverRefuses o') : NeverRefuses (if c then o else o') := by
  split
  · exact h
  · exact h'

theorem neverRefuses_andThen {α β : Type} {o : Result α} {k : α → Result β} (ho : NeverRefuses o)
    (hk : ∀ a, NeverRefuses (k a)) : NeverRefuses (andThen o k) := by
  cases o with
  | next a => exact hk a
  | fault f => exact neverRefuses_fault f
  | refused r => exact absurd rfl (ho r)

theorem neverRefuses_memRead (s : State) (i : Nat) : NeverRefuses (memRead s i) :=
  neverRefuses_ite (neverRefuses_ite (neverRefuses_next _) (neverRefuses_fault _)) (neverRefuses_fault _)

theorem neverRefuses_memWrite (s : State) (i : Nat) (v : Byte) : NeverRefuses (memWrite s i v) :=
  neverRefuses_ite (neverRefuses_next _) (neverRefuses_fault _)

theorem neverRefuses_memReadRange (s : State) (i n : Nat) : NeverRefuses (memReadRange s i n) := by
  induction n generalizing i with
  | zero => exact neverRefuses_next _
  | succ n ih =>
    exact neverRefuses_andThen (neverRefuses_memRead s i) fun _ =>
      neverRefuses_andThen (ih (i + 1)) fun _ => neverRefuses_next _

theorem neverRefuses_gated {act : State → Result State} (h : ∀ s, NeverRefuses (act s)) (s : State) :
    NeverRefuses (gated act s) :=
  neverRefuses_ite (h _) (neverRefuses_next _)

theorem neverRefuses_sendDataBit (s : State) : NeverRefuses (sendDataBit s) :=
  neverRefuses_andThen (neverRefuses_memRead _ _) fun _ => neverRefuses_next _

theorem neverRefuses_recvStopEnd (s : State) : NeverRefuses (recvStopEnd s) :=
  neverRefuses_ite
    (neverRefuses_ite (neverRefuses_andThen (neverRefuses_memWrite _ _ _) fun _ => neverRefuses_next _)
      (neverRefuses_next _))
    (neverRefuses_next _)

theorem neverRefuses_txStep (s : State) : NeverRefuses (txStep s) := by
  unfold txStep
  split
  · exact neverRefuses_ite (neverRefuses_next _) (neverRefuses_gated neverRefuses_sendDataBit _)
  · exact neverRefuses_gated neverRefuses_sendDataBit s
  · exact neverRefuses_gated (fun _ => neverRefuses_next _) s
  · exact neverRefuses_gated (fun _ => neverRefuses_next _) s
  · exact neverRefuses_fault _

theorem neverRefuses_rxStep (s : State) : NeverRefuses (rxStep s) := by
  unfold rxStep
  split
  · exact neverRefuses_next _
  · exact neverRefuses_gated (fun _ => neverRefuses_next _) s
  · exact neverRefuses_gated (fun _ => neverRefuses_next _) s
  · exact neverRefuses_gated neverRefuses_recvStopEnd s
  · exact neverRefuses_next _
  · exact neverRefuses_fault _

theorem neverRefuses_execPoll (s : State) : NeverRefuses (execPoll s) := by
  cases hb : brokenInvariant s with
  | some why => rw [execPoll_broken hb]; exact neverRefuses_fault _
  | none =>
    rw [execPoll_sound (brokenInvariant_eq_none.1 hb)]
    split
    · exact neverRefuses_txStep _
    · exact neverRefuses_ite (neverRefuses_rxStep _) (neverRefuses_next _)

theorem neverRefuses_execEnq (b : Byte) (s : State) : NeverRefuses (execEnq b s) := by
  unfold execEnq
  dsimp only
  split
  · exact neverRefuses_ite (neverRefuses_andThen (neverRefuses_memWrite _ _ _) fun _ => neverRefuses_next _)
      (neverRefuses_next _)
  · exact neverRefuses_ite (neverRefuses_andThen (neverRefuses_memWrite _ _ _) fun _ => neverRefuses_next _)
      (neverRefuses_next _)

theorem neverRefuses_execDrain (s : State) : NeverRefuses (execDrain s) := by
  unfold execDrain
  dsimp only
  split
  · exact neverRefuses_next _
  · exact neverRefuses_andThen (neverRefuses_memReadRange _ _ _) fun _ => neverRefuses_next _

/-- Every decoded command answers or faults: the refusals are those of the step (30_encoding R77, 00_scope R8). -/
theorem neverRefuses_exec (i : Instr) (s : State) : NeverRefuses (exec i s) := by
  cases i with
  | reset => exact neverRefuses_next _
  | poll => exact neverRefuses_execPoll s
  | enq b => exact neverRefuses_execEnq b s
  | drain => exact neverRefuses_execDrain s
  | status => exact neverRefuses_next _

/-! ### The refusal of a configuration -/

theorem step_of_not_wf {s : State} (h : ¬s.cfg.wf) : step s = .refused .configInvalid := if_neg h

/-- In a well-formed configuration the one refusal of a step is that of an illegal word. -/
theorem step_refused_of_wf {s : State} {r : Refusal} (hw : s.cfg.wf) (h : step s = .refused r) :
    ∃ w, r = .illegalCommand w := by
  unfold step at h
  rw [if_pos hw] at h
  split at h
  · cases h
  · split at h
    · exact absurd h (neverRefuses_exec _ _ _)
    · cases h; exact ⟨_, rfl⟩

/-- Settles O9: an ill-formed configuration is refused by the step, and no other step has that refusal. -/
theorem illFormedConfigIsRefused : Obligations.IllFormedConfigIsRefused := by
  refine fun s => ⟨⟨fun h hw => ?_, step_of_not_wf⟩, tBitUs_pos⟩
  obtain ⟨w, hr⟩ := step_refused_of_wf hw h
  cases hr

end Sys2Proof.Machine
end

section
/-! PROOFS. What one POLL does in each phase that delivers a byte, as an equation on the whole next state. -/

namespace Sys2Proof.Machine

/-! ### Dispatch: the engine and its phase -/

section Sending

variable {s : State} (hi : SpecInvariants s) (hm : s.mode = .sending)
include hi hm

theorem poll_sending : exec .poll s = txStep (startCommand s) := by
  simp only [exec_poll, execPoll_sound hi, hm]

theorem poll_sendStart (hs : s.state = TxPhase.sendStart.code) : exec .poll s = sendStart (startCommand s) := by
  simp only [poll_sending hi hm, txStep, startCommand_state, hs, txPhaseOf_code]

theorem poll_sendData (hs : s.state = TxPhase.sendData.code) :
    exec .poll s = gated sendDataBit (startCommand s) := by
  simp only [poll_sending hi hm, txStep, startCommand_state, hs, txPhaseOf_code, sendData]

theorem poll_sendStop (hs : s.state = TxPhase.sendStop.code) :
    exec .poll s = gated (fun s => .next (sendStopBit s)) (startCommand s) := by
  simp only [poll_sending hi hm, txStep, startCommand_state, hs, txPhaseOf_code, sendStop]

theorem poll_sendPause (hs : s.state = TxPhase.sendPause.code) :
    exec .poll s = gated (fun s => .next (sendPauseEnd s)) (startCommand s) := by
  simp only [poll_sending hi hm, txStep, startCommand_state, hs, txPhaseOf_code, sendPause]

end Sending

section Receiving

variable {s : State} (hi : SpecInvariants s) (hm : s.mode = .receiving)
include hi hm

/-- Outside RecvPause there is room (INV6 of 10_state R28). -/
theorem room_of_not_pause (hs : s.state ≠ RxPhase.recvPause.code) : s.len.toNat < s.cfg.capacity := by
  obtain ⟨⟨hlen, -⟩, -, -, -, -, hfull, -⟩ := hi
  exact Nat.lt_of_le_of_ne hlen fun h => hs (hfull hm h)

theorem poll_receiving (hr : s.len.toNat < s.cfg.capacity) : exec .poll s = rxStep (startCommand s) := by
  simp only [exec_poll, execPoll_sound hi, hm, (hasRoom_eq_true s).2 hr, if_true]

/-- Outside RecvPause a POLL runs the phase that `state` names. -/
theorem poll_rxPhase {p : RxPhase} (hs : s.state = p.code) (hp : p ≠ .recvPause) :
    exec .poll s = rxStep (startCommand s) := by
  refine poll_receiving hi hm (room_of_not_pause hi hm ?_)
  rw [hs]
  cases p with
  | recvPause => exact absurd rfl hp
  | _ => decide

theorem poll_recvScan (hs : s.state = RxPhase.recvScan.code) :
    exec .poll s = .next (recvScan (startCommand s)) := by
  simp only [poll_rxPhase hi hm hs (by decide), rxStep, startCommand_state, hs, rxPhaseOf_code]

theorem poll_recvValidate (hs : s.state = RxPhase.recvValidate.code) :
    exec .poll s = gated (fun s => .next (recvValidateEnd s)) (startCommand s) := by
  simp only [poll_rxPhase hi hm hs (by decide), rxStep, startCommand_state, hs, rxPhaseOf_code, recvValidate]

theorem poll_recvData (hs : s.state = RxPhase.recvData.code) :
    exec .poll s = gated (fun s => .next (recvDataBit s)) (startCommand s) := by
  simp only [poll_rxPhase hi hm hs (by decide), rxStep, startCommand_state, hs, rxPhaseOf_code, recvData]

theorem poll_recvStop (hs : s.state = RxPhase.recvStop.code) :
    exec .poll s = gated recvStopEnd (startCommand s) := by
  simp only [poll_rxPhase hi hm hs (by decide), rxStep, startCommand_state, hs, rxPhaseOf_code, recvStop]

end Receiving

/-! ### The gate -/

/-- The gated phases (40_timing R104), each with the mode in which `state` may name it (INV2 of 10_state R28). -/
theorem mode_and_phase_of_isGated {s : State} (hi : SpecInvariants s) (hg : isGated s.state = true) :
    (s.mode = .receiving ∧ (s.state = RxPhase.recvValidate.code ∨ s.state = RxPhase.recvData.code ∨
      s.state = RxPhase.recvStop.code)) ∨
    (s.mode = .sending ∧ (s.state = TxPhase.sendData.code ∨ s.state = TxPhase.sendStop.code ∨
      s.state = TxPhase.sendPause.code)) := by
  have legal (m : Mode) (c : BitVec 4) : stateLegal m c = true → isGated c = true →
      (m = .receiving ∧ (c = RxPhase.recvValidate.code ∨ c = RxPhase.recvData.code ∨ c = RxPhase.recvStop.code)) ∨
      (m = .sending ∧ (c = TxPhase.sendData.code ∨ c = TxPhase.sendStop.code ∨ c = TxPhase.sendPause.code)) := by
    revert c
    cases m <;> decide
  exact legal s.mode s.state hi.2.1 hg

/-- In a gated state POLL takes one expiry sample first, and acts only where it is true (40_timing R104, R106). -/
theorem poll_gated {s : State} (hi : SpecInvariants s) (hg : isGated s.state = true) :
    ∃ act, exec .poll s = gated act (startCommand s) := by
  rcases mode_and_phase_of_isGated hi hg with ⟨hm, h | h | h⟩ | ⟨hm, h | h | h⟩
  · exact ⟨_, poll_recvValidate hi hm h⟩
  · exact ⟨_, poll_recvData hi hm h⟩
  · exact ⟨_, poll_recvStop hi hm h⟩
  · exact ⟨_, poll_sendData hi hm h⟩
  · exact ⟨_, poll_sendStop hi hm h⟩
  · exact ⟨_, poll_sendPause hi hm h⟩

/-- A false expiry sample is taken and nothing else happens (40_timing R104). -/
theorem poll_gated_skip {s : State} (hi : SpecInvariants s) (hg : isGated s.state = true)
    (he : timerExpired s = false) : exec .poll s = .next (afterExpiry (startCommand s)) := by
  obtain ⟨act, h⟩ := poll_gated hi hg
  rw [h, gated_false (s := startCommand s) he]

/-! ### The transmit phases -/

theorem toTx_if (c : Prop) [Decidable c] (p : TxPhase) (s : State) :
    (if c then toTx p s else s) = { s with state := if c then p.code else s.state } := by
  split <;> rfl

theorem toRx_if (c : Prop) [Decidable c] (p : RxPhase) (s : State) :
    (if c then toRx p s else s) = { s with state := if c then p.code else s.state } := by
  split <;> rfl

/-- SendStart (41_transmit R121). -/
theorem poll_sendStart_eq {s : State} (hw : s.cfg.wf) (hi : SpecInvariants s) (hm : s.mode = .sending)
    (hs : s.state = TxPhase.sendStart.code) :
    exec .poll s = .next
      { s with state := TxPhase.sendData.code, bitc := 0
               pin := ⟨if s.cur = 0 then .output else s.pin.dir, LOW⟩
               timer := ⟨true, tBitUs s.cfg, false⟩
               obs := ⟨.nothing, (if s.cur = 0 then [.dirOut] else []) ++ [.low, .arm (tBitUs s.cfg)], .none⟩ } := by
  have hd : 0 < tBitUs s.cfg := by have := tBitUs_pos hw; omega
  rw [poll_sendStart hi hm hs, sendStart]
  by_cases hc : s.cur = 0
  · simp only [startCommand_cur, hc, if_true]
    rw [gatedInArmingPoll_skip hd]
    simp [toTx, perform, hc, Observation.silent]
  · simp only [startCommand_cur, hc, if_false]
    rw [gatedInArmingPoll_skip hd]
    rfl

/-- SendData at its expiry: bit `bitc` of the byte goes onto the pin (41_transmit R122). -/
theorem poll_sendData_due {s : State} (hi : SpecInvariants s) (hm : s.mode = .sending)
    (hs : s.state = TxPhase.sendData.code) (he : timerExpired s = true) :
    exec .poll s = .next
      { afterExpiry s with
        bitc := s.bitc + 1
        state := if s.bitc + 1 = 8 then TxPhase.sendStop.code else TxPhase.sendData.code
        pin := ⟨s.pin.dir, (s.buf.read s.cur.toNat).getLsbD s.bitc.toNat⟩
        timer := ⟨true, tBitUs s.cfg, false⟩
        obs := ⟨.nothing, [.arm (tBitUs s.cfg),
          if (s.buf.read s.cur.toNat).getLsbD s.bitc.toNat then .high else .low], .none⟩ } := by
  obtain ⟨⟨hlen, -⟩, -, hbyte, -⟩ := id hi
  have hcur := (hbyte hm).2
  have hread : memRead (perform (.arm (tBitUs s.cfg)) (afterExpiry (startCommand s))) s.cur.toNat =
      .next (s.buf.read s.cur.toNat) := memRead_ok hcur (Nat.lt_of_lt_of_le hcur hlen)
  rw [poll_sendData hi hm hs, gated_true (s := startCommand s) he, sendDataBit]
  refine (congrArg (andThen · _) hread).trans ?_
  simp only [andThen_ok, bitLevel_eq, toTx_if, ← hs, perform_bitc, afterExpiry_bitc, startCommand_bitc]
  cases (s.buf.read s.cur.toNat).getLsbD s.bitc.toNat <;> rfl

/-- SendStop at its expiry: the stop bit goes onto the pin (41_transmit R123). -/
theorem poll_sendStop_due {s : State} (hi : SpecInvariants s) (hm : s.mode = .sending)
    (hs : s.state = TxPhase.sendStop.code) (he : timerExpired s = true) :
    exec .poll s = .next
      { afterExpiry s with
        state := TxPhase.sendPause.code, pin := ⟨s.pin.dir, HIGH⟩, timer := ⟨true, tBitUs s.cfg, false⟩
        obs := ⟨.nothing, [.high, .arm (tBitUs s.cfg)], .none⟩ } := by
  rw [poll_sendStop hi hm hs, gated_true (s := startCommand s) he]
  rfl

/-! ### The receive phases -/

section Receiving

variable {s : State} (hi : SpecInvariants s) (hm : s.mode = .receiving)
include hi hm

/-- RecvScan on a LOW sample: a candidate start bit (42_receive R141). -/
theorem poll_recvScan_low (hs : s.state = RxPhase.recvScan.code) (hl : pinLevel s = LOW) :
    exec .poll s = .next
      { afterPinRead s with
        idle := 0, state := RxPhase.recvValidate.code, timer := ⟨true, tValidateUs, false⟩
        obs := ⟨.nothing, [.arm tValidateUs], .none⟩ } := by
  rw [poll_recvScan hi hm hs]
  simp only [recvScan, pinLevel_startCommand, hl, if_true]
  rfl

/-- RecvValidate on a LOW sample at its expiry: the start bit holds (42_receive R142). -/
theorem poll_recvValidate_low (hs : s.state = RxPhase.recvValidate.code) (he : timerExpired s = true)
    (hl : pinLevel (afterExpiry s) = LOW) :
    exec .poll s = .next
      { afterPinRead (afterExpiry s) with
        bitc := 0, cur := 0, state := RxPhase.recvData.code, timer := ⟨true, tBitUs s.cfg, false⟩
        obs := ⟨.nothing, [.arm (tBitUs s.cfg)], .none⟩ } := by
  rw [poll_recvValidate hi hm hs, gated_true (s := startCommand s) he]
  simp only [recvValidateEnd, pinLevel_afterExpiry_startCommand, hl, if_true]
  rfl

/-- RecvData at its expiry: the sample goes into bit `bitc` of the accumulator (42_receive R143). -/
theorem poll_recvData_due (hs : s.state = RxPhase.recvData.code) (he : timerExpired s = true) :
    exec .poll s = .next
      { afterPinRead (afterExpiry s) with
        cur := orSample s.cur (pinLevel (afterExpiry s)) s.bitc.toNat
        bitc := s.bitc + 1
        state := if s.bitc + 1 = 8 then RxPhase.recvStop.code else RxPhase.recvData.code
        timer := ⟨true, tBitUs s.cfg, false⟩
        obs := ⟨.nothing, [.arm (tBitUs s.cfg)], .none⟩ } := by
  rw [poll_recvData hi hm hs, gated_true (s := startCommand s) he]
  simp only [recvDataBit, toRx_if, ← hs]
  rfl

/-- RecvStop on a HIGH sample at its expiry: the byte is committed behind those held (42_receive R144). -/
theorem poll_recvStop_high (hs : s.state = RxPhase.recvStop.code) (he : timerExpired s = true)
    (hl : pinLevel (afterExpiry s) = HIGH) :
    exec .poll s = .next
      { afterPinRead (afterExpiry s) with
        buf := s.buf.write s.len.toNat s.cur, len := s.len + 1, state := RxPhase.recvPause.code
        obs := ⟨.nothing, [], .commit s.cur s.len.toNat⟩ } := by
  have hr := room_of_not_pause hi hm (by rw [hs]; decide)
  have hroom : hasRoom (afterPinRead (afterExpiry (startCommand s))) = true := (hasRoom_eq_true _).2 hr
  rw [poll_recvStop hi hm hs, gated_true (s := startCommand s) he]
  simp only [recvStopEnd, pinLevel_afterExpiry_startCommand, hl, hroom, if_true]
  exact congrArg (fun o => andThen o _)
    (memWrite_ok (s := afterPinRead (afterExpiry (startCommand s))) (i := s.len.toNat) hr s.cur)

end Receiving

end Sys2Proof.Machine
end

section
/-! PROOFS. One member of the reference environment: what the POLL of one microsecond leaves of it, of a sender in each
bit-time and of a receiver at each sample. -/

namespace Sys2Proof.Machine

/-! ### A member and the POLL of one microsecond -/

/-- A state without the inputs still to come, the environment's counter and the last observation: what a member keeps
from one microsecond to the next. -/
def registers (s : State) : State :=
  { s with commands := [], expiries := [], lines := [], draws := 0, obs := .silent }

/-- The state in which a member's POLL runs: the word taken, one timer answer and one line sample to come. -/
def offered (s : State) (expired : Bool) (others : List Level) (draws : Nat) : State :=
  { s with commands := [], expiries := [expired], lines := [others], draws := draws, obs := .silent }

theorem offered_congr {s r : State} (h : registers s = registers r) (expired : Bool) (others : List Level)
    (draws : Nat) : offered s expired others draws = offered r expired others draws :=
  (congrArg (fun s => offered s expired others draws) h :)

/-! ### What the offered inputs answer -/

/-- At or past its deadline the timer answers true (60_exceptions R216). -/
theorem timerExpired_offered_due (s : State) {d t : Nat} (h : d ≤ t) (others : List Level) (draws : Nat) :
    timerExpired (offered s (decide (d ≤ t)) others draws) = true := by
  simp [timerExpired, expiryDraw, offered, h]

/-- A listening pin reads the one level that another pin drives. -/
theorem pinLevel_offered {s : State} (h : s.pin.dir = .input) (expired : Bool) (l : Level) (draws : Nat) :
    pinLevel (offered s expired [l] draws) = l :=
  pinLevel_fixed (by simp [readFixed, offered, h, otherDrivers, lineLevel])

theorem pinLevel_afterExpiry_offered {s : State} (h : s.pin.dir = .input) (expired : Bool) (l : Level) (draws : Nat) :
    pinLevel (afterExpiry (offered s expired [l] draws)) = l :=
  pinLevel_fixed (by simp [readFixed, offered, h, otherDrivers, lineLevel])

/-! ### The POLL of one microsecond -/

theorem step_presented_poll {t draws : Nat} {others : List Level} {m : Member} (hw : m.state.cfg.wf) :
    step (presented t draws others (encode .poll) m) =
      exec .poll (offered m.state (decide (m.deadline ≤ t)) others draws) := by
  have hd : decode (encode .poll) = .ok .poll := by decide
  unfold step
  rw [if_pos (show (presented t draws others (encode .poll) m).cfg.wf from hw)]
  simp only [takeCommand, presented, hd]
  rfl

/-- The member holds the registers of `r`, its timer expires at `deadline`, and it is polled every microsecond. -/
structure Member.Holds (r : State) (deadline : Nat) (m : Member) : Prop where
  registers_eq : registers m.state = registers r
  deadline_eq : m.deadline = deadline
  period_eq : m.period = 1

theorem Member.Holds.pin_eq {r : State} {d : Nat} {m : Member} (h : m.Holds r d) : m.state.pin = r.pin :=
  (congrArg State.pin h.registers_eq :)

/-- A POLL at time `t`, with the levels `others` on the line, answers and leaves a member of `P`. -/
def Member.PolledTo (t : Nat) (others : List Level) (m : Member) (P : Member → Prop) : Prop :=
  ∀ draws, ∃ u, step (presented t draws others (encode .poll) m) = .next u ∧ P (settled t m u)

/-- What a POLL leaves of a member, from the equation of the phase that it runs. -/
theorem Member.Holds.polledTo {r : State} {d t : Nat} {others : List Level} {m : Member} {P : Member → Prop}
    (h : m.Holds r d) (hw : r.cfg.wf)
    (hp : ∀ draws, ∃ u, exec .poll (offered r (decide (d ≤ t)) others draws) = .next u ∧ P (settled t m u)) :
    m.PolledTo t others P := by
  intro draws
  have hcfg : m.state.cfg = r.cfg := (congrArg State.cfg h.registers_eq :)
  rw [step_presented_poll (hcfg ▸ hw), h.deadline_eq, offered_congr h.registers_eq]
  exact hp draws

/-- One member's POLL in a gated state before its deadline changes no register. -/
theorem Member.Holds.waits {r : State} {d t : Nat} {others : List Level} {m : Member} (h : m.Holds r d) (hw : r.cfg.wf)
    (hi : SpecInvariants r) (hg : isGated r.state = true) (hn : r.timer.seenExpired = false) (ht : t < d) :
    m.PolledTo t others (Member.Holds r d) := by
  refine h.polledTo hw fun draws => ?_
  have he : timerExpired (offered r (decide (d ≤ t)) others draws) = false := by
    simp [timerExpired, expiryDraw, offered, hn, ht]
  refine ⟨_, poll_gated_skip hi hg he, ?_, h.deadline_eq, h.period_eq⟩
  simp only [registers, settled_state, afterExpiry_timer, timerExpired_startCommand, he, ← hn]
  rfl

/-- One microsecond of two members: the first is polled, then the second, which sees the pin the first has just left. -/
theorem RefEnv.tick_polledTo {e : RefEnv} {a b : Member} {P Q : Member → Prop} (hm : e.members = [a, b])
    (hs : e.schedule = []) (ha : a.period = 1) (hb : b.period = 1) (pa : a.PolledTo e.time (driversOf [b]) P)
    (pb : ∀ a', P a' → b.PolledTo e.time (driversOf [a']) Q) :
    ∃ e' a' b', e.tick = .next e' ∧ e'.time = e.time + 1 ∧ e'.schedule = [] ∧ e'.members = [a', b'] ∧
      P a' ∧ Q b' := by
  obtain ⟨s, hstep, hP⟩ := pa e.draws
  obtain ⟨s', hstep', hQ⟩ := pb _ hP s.draws
  exact ⟨_, _, _, RefEnv.tick_pair hm hs ha hb hstep hstep', rfl, rfl, rfl, hP, hQ⟩

/-! ### The invariants that speak of the other engine's phases -/

theorem stateLegal_rx {s : State} {p : RxPhase} (hm : s.mode = .receiving) (h : s.state = p.code) :
    StateLegalForMode s := by
  rw [StateLegalForMode, hm, h, stateLegal, rxPhaseOf_code, Option.isSome_some]

theorem stateLegal_tx {s : State} {p : TxPhase} (hm : s.mode = .sending) (h : s.state = p.code) :
    StateLegalForMode s := by
  rw [StateLegalForMode, hm, h, stateLegal, txPhaseOf_code, Option.isSome_some]

theorem rx_code_ne_tx_code (p : RxPhase) (q : TxPhase) : p.code ≠ q.code := fun h => by
  have := rx_code_msb p
  rw [h, tx_code_msb] at this
  cases this

/-- In a receive phase INV4 of 10_state R28 says nothing. -/
theorem txBitCursor_rx {s : State} {p : RxPhase} (h : s.state = p.code) : TxBitCursor s := by
  have hne (q : TxPhase) : s.state ≠ q.code := h ▸ rx_code_ne_tx_code p q
  exact ⟨fun e => absurd e (hne _), fun e => absurd e (hne _), fun e => absurd e (hne _), fun e => absurd e (hne _)⟩

/-- In a transmit phase INV5 of 10_state R28 says nothing. -/
theorem rxBitCursor_tx {s : State} {p : TxPhase} (h : s.state = p.code) : RxBitCursor s := by
  have hne (q : RxPhase) : s.state ≠ q.code := h ▸ (rx_code_ne_tx_code q p).symm
  exact ⟨fun e => absurd e (hne _), fun e => absurd e (hne _)⟩

/-- What 10_state R28 asks in a transmit phase with the timer armed: the counters, the bytes and the bit cursor. -/
theorem spec_of_sending {s : State} {p : TxPhase} (hm : s.mode = .sending) (hs : s.state = p.code)
    (hc : CountersInRange s) (hbyte : SendingHasByte s) (hb : TxBitCursor s) (ha : s.timer.armed = true) :
    SpecInvariants s :=
  ⟨hc, stateLegal_tx hm hs, hbyte, hb, rxBitCursor_tx hs, fun h => absurd (hm.symm.trans h) (by decide), fun _ => ha⟩

/-- What 10_state R28 asks in a receive phase with room and the timer armed: the counters and the bit cursor. -/
theorem spec_of_receiving {s : State} {p : RxPhase} (hm : s.mode = .receiving) (hs : s.state = p.code)
    (hr : s.len.toNat < s.cfg.capacity) (hc : s.bitc.toNat ≤ 8 ∧ s.idle ≤ s.cfg.idleThreshold) (hb : RxBitCursor s)
    (ha : s.timer.armed = true) : SpecInvariants s :=
  ⟨⟨hr.le, hc⟩, stateLegal_rx hm hs, fun h => absurd (hm.symm.trans h) (by decide), txBitCursor_rx hs, hb,
    fun _ h => absurd h hr.ne, fun _ => ha⟩

/-! ### The sender, bit-time by bit-time -/

/-- The sender `s` in bit-time `k` of the byte at its cursor: the frame's level `k` on the pin (30_encoding R70), and the
timer of the bit-time running. -/
def sendingBit (s : State) (k : Nat) : State :=
  { s with
    state := if k < 8 then TxPhase.sendData.code else if k = 8 then TxPhase.sendStop.code else TxPhase.sendPause.code
    bitc := BitVec.ofNat 4 (min k 8)
    pin := ⟨.output, (frameOf (s.buf.read s.cur.toNat)).getD k HIGH⟩
    timer := ⟨true, tBitUs s.cfg, false⟩ }

theorem frameOf_start (x : Byte) : (frameOf x).getD 0 HIGH = LOW := rfl

theorem frameOf_data (x : Byte) {k : Nat} (hk : k < 8) : (frameOf x).getD (k + 1) HIGH = x.getLsbD k := by
  simp [frameOf, List.getD_eq_getElem?_getD, List.getElem?_append, hk, bitLevel_eq]

theorem frameOf_stop (x : Byte) : (frameOf x).getD 9 HIGH = HIGH := rfl

/-- The phase and the bit cursor of each bit-time. -/
theorem sendingBit_phase (s : State) (k : Nat) :
    (k < 8 ∧ (sendingBit s k).state = TxPhase.sendData.code ∧ (sendingBit s k).bitc.toNat = k) ∨
    (k = 8 ∧ (sendingBit s k).state = TxPhase.sendStop.code ∧ (sendingBit s k).bitc = 8) ∨
    (8 < k ∧ (sendingBit s k).state = TxPhase.sendPause.code ∧ (sendingBit s k).bitc = 8) := by
  rcases Nat.lt_trichotomy k 8 with h | rfl | h
  · have hb : min k 8 = k := by omega
    exact .inl ⟨h, by simp [sendingBit, h], by simp [sendingBit, hb]; omega⟩
  · exact .inr (.inl ⟨rfl, rfl, rfl⟩)
  · have h1 : ¬k < 8 := by omega
    have h2 : k ≠ 8 := by omega
    have hb : min k 8 = 8 := by omega
    exact .inr (.inr ⟨h, by simp [sendingBit, h1, h2], by simp [sendingBit, hb]⟩)

theorem sendingBit_gated (s : State) (k : Nat) : isGated (sendingBit s k).state = true := by
  rcases sendingBit_phase s k with ⟨-, h, -⟩ | ⟨-, h, -⟩ | ⟨-, h, -⟩ <;> rw [h] <;> rfl

/-- A bit cursor that counts `k` of the eight data bits reaches 8 with the last. -/
theorem succ_eq_eight_iff {c : BitVec 4} {k : Nat} (hc : c.toNat = k) (hk : k < 8) : c + 1 = 8 ↔ k + 1 = 8 := by
  bv_omega

section Next

variable (s : State) {k : Nat} (hk : k < 8)
include hk

theorem sendingBit_bitc : (sendingBit s k).bitc.toNat = k := by
  rcases sendingBit_phase s k with ⟨-, -, h⟩ | ⟨h, -⟩ | ⟨h, -⟩ <;> omega

theorem sendingBit_succ_bitc : (sendingBit s (k + 1)).bitc = (sendingBit s k).bitc + 1 := by
  simp only [sendingBit, Nat.min_eq_left hk, Nat.min_eq_left hk.le]
  exact BitVec.ofNat_add k 1

theorem sendingBit_succ_state : (sendingBit s (k + 1)).state =
    if (sendingBit s k).bitc + 1 = 8 then TxPhase.sendStop.code else TxPhase.sendData.code := by
  simp only [succ_eq_eight_iff (sendingBit_bitc s hk) hk]
  rcases sendingBit_phase s (k + 1) with ⟨h, hs, -⟩ | ⟨h, hs, -⟩ | ⟨h, -⟩
  · rw [hs, if_neg (by omega)]
  · rw [hs, if_pos h]
  · omega

theorem sendingBit_succ_pin : (sendingBit s (k + 1)).pin =
    ⟨(sendingBit s k).pin.dir, (s.buf.read s.cur.toNat).getLsbD (sendingBit s k).bitc.toNat⟩ := by
  rw [sendingBit_bitc s hk, ← frameOf_data _ hk]
  rfl

end Next

section Sender

variable {s : State} (hw : s.cfg.wf) (hi : SpecInvariants s) (hm : s.mode = .sending)

include hi hm in
theorem sendingBit_spec (k : Nat) : SpecInvariants (sendingBit s k) := by
  obtain ⟨⟨hlen, -, hidle⟩, -, hbyte, -⟩ := hi
  have spec {p : TxPhase} (hs : (sendingBit s k).state = p.code) (hb : (sendingBit s k).bitc.toNat ≤ 8)
      (ht : TxBitCursor (sendingBit s k)) : SpecInvariants (sendingBit s k) :=
    spec_of_sending hm hs ⟨hlen, hb, hidle⟩ hbyte ht rfl
  rcases sendingBit_phase s k with ⟨hk, hs, hb⟩ | ⟨-, hs, hb⟩ | ⟨-, hs, hb⟩
  · exact spec hs (by omega) (by simp [TxBitCursor, hs, TxPhase.code]; omega)
  · exact spec hs (by simp [hb]) (by simp [TxBitCursor, hs, hb, TxPhase.code])
  · exact spec hs (by simp [hb]) (by simp [TxBitCursor, hs, hb, TxPhase.code])

variable {t d : Nat} {others : List Level} {m : Member}
include hw hi hm

/-- The POLL in which the start bit begins. -/
theorem sender_starts (h : m.Holds s d) (hs : s.state = TxPhase.sendStart.code)
    (hp : s.cur ≠ 0 → s.pin.dir = .output) :
    m.PolledTo t others (Member.Holds (sendingBit s 0) (t + tBitUs s.cfg)) := by
  refine h.polledTo hw fun draws => ⟨_, poll_sendStart_eq hw hi hm hs, ?_, ?_, h.period_eq⟩
  · unfold registers
    congr 1
    show Pin.mk (if s.cur = 0 then .output else s.pin.dir) LOW = ⟨.output, LOW⟩
    split
    · rfl
    · rw [hp ‹_›]
  · show deadlineAfter t m.deadline ((if s.cur = 0 then [.dirOut] else []) ++ [.low, .arm (tBitUs s.cfg)]) = _
    split <;> rfl

/-- Before its deadline the sender holds the level of its bit-time. -/
theorem sender_waits {k : Nat} (h : m.Holds (sendingBit s k) d) (ht : t < d) :
    m.PolledTo t others (Member.Holds (sendingBit s k) d) :=
  h.waits hw (sendingBit_spec hi hm k) (sendingBit_gated s k) rfl ht

/-- At its deadline the sender goes on to the next bit-time, up to the stop bit. -/
theorem sender_advances {k : Nat} (h : m.Holds (sendingBit s k) d) (hk : k ≤ 8) (ht : d ≤ t) :
    m.PolledTo t others (Member.Holds (sendingBit s (k + 1)) (t + tBitUs s.cfg)) := by
  refine h.polledTo hw fun draws => ?_
  have hi' := sendingBit_spec hi hm k
  have he := timerExpired_offered_due (sendingBit s k) ht others draws
  rcases sendingBit_phase s k with ⟨hk8, hs, hb⟩ | ⟨rfl, hs, hb⟩ | ⟨hk8, -, -⟩
  · refine ⟨_, poll_sendData_due hi' hm hs he, ?_, ?_, h.period_eq⟩
    · unfold registers
      congr 1
      · exact (sendingBit_succ_state s hk8).symm
      · exact (sendingBit_succ_bitc s hk8).symm
      · exact (sendingBit_succ_pin s hk8).symm
    · show deadlineAfter t m.deadline [.arm (tBitUs s.cfg), if _ then .high else .low] = _
      split <;> rfl
  · exact ⟨_, poll_sendStop_due hi' hm hs he, rfl, rfl, h.period_eq⟩
  · omega

end Sender

/-! ### The receiver, sample by sample -/

/-- The accumulator once the first `i` data bits of `x` are in it (30_encoding R72). -/
def partialByte (x : Byte) (i : Nat) : Byte := BitVec.ofNat 8 (x.toNat % 2 ^ i)

theorem partialByte_zero (x : Byte) : partialByte x 0 = 0 := by simp [partialByte, Nat.mod_one]

theorem partialByte_eight (x : Byte) : partialByte x 8 = x := by
  rw [partialByte, Nat.mod_eq_of_lt x.isLt, BitVec.ofNat_toNat, BitVec.setWidth_eq]

theorem partialByte_lt (x : Byte) (i : Nat) : (partialByte x i).toNat < 2 ^ i := by
  rw [partialByte, BitVec.toNat_ofNat]
  exact Nat.lt_of_le_of_lt (Nat.mod_le _ _) (Nat.mod_lt _ (Nat.two_pow_pos i))

/-- The next data bit goes into the accumulator. -/
theorem orSample_partialByte (x : Byte) (i : Nat) :
    orSample (partialByte x i) (x.getLsbD i) i = partialByte x (i + 1) := by
  apply BitVec.eq_of_getLsbD_eq
  intro j hj
  simp only [orSample_getLsbD _ _ _ _ hj, partialByte, BitVec.getLsbD_ofNat, Nat.testBit_mod_two_pow,
    BitVec.testBit_toNat, hj]
  rcases Nat.lt_trichotomy j i with h | rfl | h
  · simp [h, h.ne, Nat.lt_succ_of_lt h]
  · simp
  · simp [h.ne', Nat.not_lt.2 h.le, Nat.not_lt.2 (Nat.succ_le_of_lt h)]

/-- The receiver `s` waiting for sample `j` of those that follow the scan, with the byte `x` on the line: in the
window of the start bit, in the data bits, or before the stop bit. -/
def receivingBit (s : State) (x : Byte) : Nat → State
  | 0 => { s with state := RxPhase.recvValidate.code, idle := 0, timer := ⟨true, tValidateUs, false⟩ }
  | i + 1 =>
    { s with
      state := if i < 8 then RxPhase.recvData.code else RxPhase.recvStop.code
      idle := 0
      bitc := BitVec.ofNat 4 i
      cur := partialByte x i
      timer := ⟨true, tBitUs s.cfg, false⟩ }

theorem receivingBit_data (s : State) (x : Byte) {i : Nat} (hi : i < 8) :
    (receivingBit s x (i + 1)).state = RxPhase.recvData.code := if_pos hi

theorem receivingBit_bitc (s : State) (x : Byte) {i : Nat} (hi : i ≤ 8) :
    (receivingBit s x (i + 1)).bitc.toNat = i := by
  simp only [receivingBit, BitVec.toNat_ofNat]
  omega

theorem receivingBit_succ_state (s : State) (x : Byte) {i : Nat} (hi : i < 8) :
    (receivingBit s x (i + 2)).state =
      if (receivingBit s x (i + 1)).bitc + 1 = 8 then RxPhase.recvStop.code else RxPhase.recvData.code := by
  simp only [succ_eq_eight_iff (receivingBit_bitc s x hi.le) hi]
  by_cases h : i + 1 = 8
  · rw [if_pos h]; exact if_neg (by omega)
  · rw [if_neg h]; exact if_pos (by omega)

/-- The level of bit-time `i + 1`, put into the accumulator. -/
theorem receivingBit_succ_cur (s : State) (x : Byte) {i : Nat} (hi : i < 8) :
    (receivingBit s x (i + 2)).cur =
      orSample (receivingBit s x (i + 1)).cur ((frameOf x).getD (i + 1) HIGH)
        (receivingBit s x (i + 1)).bitc.toNat := by
  rw [receivingBit_bitc s x hi.le, frameOf_data x hi]
  exact (orSample_partialByte x i).symm

theorem receivingBit_gated (s : State) (x : Byte) {j : Nat} (hj : j ≤ 9) :
    isGated (receivingBit s x j).state = true := by
  match j with
  | 0 => rfl
  | i + 1 =>
    by_cases h : i < 8
    · rw [receivingBit_data s x h]; rfl
    · rw [show i = 8 by omega]; rfl

/-- The member is the receiver `s` with `x` committed behind the bytes it held (42_receive R144). -/
structure Member.Committed (s : State) (x : Byte) (m : Member) : Prop where
  mode_eq : m.state.mode = .receiving
  state_eq : m.state.state = RxPhase.recvPause.code
  len_eq : m.state.len = s.len + 1
  buf_eq : m.state.buf = s.buf.write s.len.toNat x
  event_eq : m.state.obs.event = .commit x s.len.toNat

section Receiver

variable {s : State} (hw : s.cfg.wf) (hi : SpecInvariants s) (hm : s.mode = .receiving)
  (hr : s.len.toNat < s.cfg.capacity)

include hi hm hr in
theorem receivingBit_spec (x : Byte) {j : Nat} (hj : j ≤ 9) : SpecInvariants (receivingBit s x j) := by
  obtain ⟨⟨-, hbitc, -⟩, -, -, -⟩ := hi
  match j with
  | 0 =>
    exact spec_of_receiving (p := .recvValidate) hm rfl hr ⟨hbitc, Nat.zero_le _⟩
      (by simp [RxBitCursor, receivingBit, RxPhase.code]) rfl
  | i + 1 =>
    have hb : (receivingBit s x (i + 1)).bitc.toNat = i := receivingBit_bitc s x (by omega)
    rcases Nat.lt_or_ge i 8 with h | h
    · have hs := receivingBit_data s x h
      refine spec_of_receiving hm hs hr ⟨by omega, Nat.zero_le _⟩ ⟨fun _ => ⟨by omega, ?_⟩, fun e => ?_⟩ rfl
      · rw [hb]; exact partialByte_lt x i
      · rw [hs] at e; exact absurd e (by decide)
    · obtain rfl : i = 8 := by omega
      exact spec_of_receiving (p := .recvStop) hm rfl hr ⟨hb.le, Nat.zero_le _⟩
        ⟨fun e => absurd e (show RxPhase.recvStop.code ≠ RxPhase.recvData.code by decide), fun _ => rfl⟩ rfl

variable {t d : Nat} {m : Member}
include hw hi hm

/-- The scan that sees the start bit. -/
theorem receiver_scans (hp : s.pin.dir = .input) (hs : s.state = RxPhase.recvScan.code) (h : m.Holds s d) (x : Byte) :
    m.PolledTo t [LOW] (Member.Holds (receivingBit s x 0) (t + tValidateUs)) :=
  h.polledTo hw fun _ =>
    ⟨_, poll_recvScan_low hi hm hs (pinLevel_offered hp _ _ _), rfl, rfl, h.period_eq⟩

include hr

/-- Before its deadline the receiver keeps what it has sampled. -/
theorem receiver_waits {others : List Level} {x : Byte} {j : Nat} (hj : j ≤ 9) (h : m.Holds (receivingBit s x j) d)
    (ht : t < d) : m.PolledTo t others (Member.Holds (receivingBit s x j) d) := by
  refine h.waits ?_ (receivingBit_spec hi hm hr x hj) (receivingBit_gated s x hj) ?_ ht
  · cases j <;> exact hw
  · cases j <;> rfl

/-- At its deadline the receiver samples bit-time `j`: the start bit, then the data bits. -/
theorem receiver_samples (hp : s.pin.dir = .input) {x : Byte} {j : Nat} (hj : j ≤ 8)
    (h : m.Holds (receivingBit s x j) d) (ht : d ≤ t) :
    m.PolledTo t [(frameOf x).getD j HIGH] (Member.Holds (receivingBit s x (j + 1)) (t + tBitUs s.cfg)) := by
  have hi' := receivingBit_spec hi hm hr x (show j ≤ 9 by omega)
  match j with
  | 0 =>
    refine h.polledTo hw fun draws => ⟨_, poll_recvValidate_low hi' hm rfl (timerExpired_offered_due _ ht _ _)
      (pinLevel_afterExpiry_offered hp _ _ _), ?_, rfl, h.period_eq⟩
    unfold registers
    congr 1
    exact (partialByte_zero x).symm
  | i + 1 =>
    refine h.polledTo hw fun draws => ⟨_, poll_recvData_due hi' hm (receivingBit_data s x hj)
      (timerExpired_offered_due _ ht _ _), ?_, rfl, h.period_eq⟩
    rw [pinLevel_afterExpiry_offered (by exact hp)]
    unfold registers
    congr 1
    · exact (receivingBit_succ_state s x hj).symm
    · exact (BitVec.ofNat_add i 1).symm
    · exact (receivingBit_succ_cur s x hj).symm

/-- At its last deadline the receiver samples the stop bit and commits the byte. -/
theorem receiver_commits (hp : s.pin.dir = .input) {x : Byte} (h : m.Holds (receivingBit s x 9) d) (ht : d ≤ t) :
    m.PolledTo t [HIGH] (Member.Committed s x) := by
  have hi' := receivingBit_spec hi hm hr x (Nat.le_refl 9)
  refine h.polledTo hw fun draws => ⟨_, poll_recvStop_high hi' hm rfl (timerExpired_offered_due _ ht _ _)
      (pinLevel_afterExpiry_offered hp _ _ _), hm, rfl, rfl, ?_, ?_⟩
  · exact congrArg (s.buf.write s.len.toNat) (partialByte_eight x)
  · exact congrArg (Event.commit · s.len.toNat) (partialByte_eight x)

end Receiver

end Sys2Proof.Machine
end

section
/-! PROOFS. The delivery of one byte: 950 µs into each bit-time the receiver samples the level that the sender holds. -/

namespace Sys2Proof.Machine

/-- The line carries what the sender in bit-time `k` drives, where nobody else does. -/
theorem driversOf_sendingBit {s : State} {k d : Nat} {m : Member} (h : m.Holds (sendingBit s k) d) :
    driversOf [m] = [(frameOf (s.buf.read s.cur.toNat)).getD k HIGH] := by
  rw [driversOf_cons, h.pin_eq]
  rfl

/-- The environment `τ` microseconds after the one, `t₀`, in which the start bit begins: the sender `s` is in the bit-time
`k` with `k * T ≤ τ < (k + 1) * T`, and the receiver `r` waits for its sample `j`, due at `950 + j * T`. -/
def InFrame (s r : State) (t₀ τ : Nat) (e : RefEnv) : Prop :=
  e.time = t₀ + τ + 1 ∧ e.schedule = [] ∧ ∃ a b k j, e.members = [a, b] ∧
    a.Holds (sendingBit s k) (t₀ + (k + 1) * tBitUs s.cfg) ∧
    k * tBitUs s.cfg ≤ τ ∧ τ < (k + 1) * tBitUs s.cfg ∧
    b.Holds (receivingBit r (s.buf.read s.cur.toNat) j) (t₀ + (tValidateUs + j * tBitUs r.cfg)) ∧
    j ≤ 9 ∧ τ < tValidateUs + j * tBitUs r.cfg

section Delivery

variable {s r : State} (hws : s.cfg.wf) (his : SpecInvariants s) (hms : s.mode = .sending)
  (hwr : r.cfg.wf) (hir : SpecInvariants r) (hmr : r.mode = .receiving) (hroom : r.len.toNat < r.cfg.capacity)
  (hpr : r.pin.dir = .input) (hT : tBitUs r.cfg = tBitUs s.cfg) (hok : cfgTimingOk s.cfg)

/-- 950 µs into bit-time `j` of the sender is within its bit-time `j` (00_scope R9). -/
theorem bitTime_of_sample {T k j : Nat} (hV : tValidateUs < T) (hlo : k * T ≤ tValidateUs + j * T)
    (hhi : tValidateUs + j * T < (k + 1) * T) : k = j := by
  have h1 : k < j + 1 := Nat.lt_of_mul_lt_mul_right (a := T) (by rw [Nat.add_mul]; omega)
  have h2 : j < k + 1 := Nat.lt_of_mul_lt_mul_right (a := T) (by omega)
  omega

include hws his hms in
/-- The sender's POLL of the next microsecond: it stays in its bit-time or goes on to the next. -/
theorem sender_polled {t₀ τ k : Nat} {a : Member} {others : List Level}
    (ha : a.Holds (sendingBit s k) (t₀ + (k + 1) * tBitUs s.cfg)) (hlo : k * tBitUs s.cfg ≤ τ)
    (hhi : τ < (k + 1) * tBitUs s.cfg) (hend : τ + 1 < 10 * tBitUs s.cfg) :
    ∃ k', a.PolledTo (t₀ + τ + 1) others (Member.Holds (sendingBit s k') (t₀ + (k' + 1) * tBitUs s.cfg)) ∧
      k' * tBitUs s.cfg ≤ τ + 1 ∧ τ + 1 < (k' + 1) * tBitUs s.cfg := by
  by_cases hw : τ + 1 < (k + 1) * tBitUs s.cfg
  · exact ⟨k, sender_waits hws his hms ha (by omega), by omega, hw⟩
  · have hk : k + 1 < 10 := Nat.lt_of_mul_lt_mul_right (a := tBitUs s.cfg) (by omega)
    have hT := tBitUs_pos hws
    have hadv := sender_advances (others := others) (t := t₀ + τ + 1) hws his hms ha (by omega) (by omega)
    have hsucc : (k + 1 + 1) * tBitUs s.cfg = (k + 1) * tBitUs s.cfg + tBitUs s.cfg := Nat.succ_mul _ _
    refine ⟨k + 1, ?_, by omega, by omega⟩
    rwa [show t₀ + τ + 1 + tBitUs s.cfg = t₀ + (k + 1 + 1) * tBitUs s.cfg by omega] at hadv

include hwr hir hmr hroom hpr in
/-- The receiver's POLL of the next microsecond, before its last sample: it waits, or samples the bit-time it is in. -/
theorem receiver_polled {t₀ τ k j : Nat} {b : Member} {x : Byte}
    (hb : b.Holds (receivingBit r x j) (t₀ + (tValidateUs + j * tBitUs r.cfg))) (hj : j ≤ 9)
    (hdue : τ < tValidateUs + j * tBitUs r.cfg) (hend : τ + 1 < tValidateUs + 9 * tBitUs r.cfg)
    (hV : tValidateUs < tBitUs r.cfg) (hlo : k * tBitUs r.cfg ≤ τ + 1) (hhi : τ + 1 < (k + 1) * tBitUs r.cfg) :
    ∃ j', b.PolledTo (t₀ + τ + 1) [(frameOf x).getD k HIGH]
        (Member.Holds (receivingBit r x j') (t₀ + (tValidateUs + j' * tBitUs r.cfg))) ∧
      j' ≤ 9 ∧ τ + 1 < tValidateUs + j' * tBitUs r.cfg := by
  by_cases hw : τ + 1 < tValidateUs + j * tBitUs r.cfg
  · exact ⟨j, receiver_waits hwr hir hmr hroom hj hb (by omega), hj, hw⟩
  · have hτ : τ + 1 = tValidateUs + j * tBitUs r.cfg := by omega
    have hj8 : j < 9 := Nat.lt_of_mul_lt_mul_right (a := tBitUs r.cfg) (by omega)
    obtain rfl : k = j := bitTime_of_sample hV (by omega) (by omega)
    have hsam := receiver_samples (t := t₀ + τ + 1) hwr hir hmr hroom hpr (by omega) hb (by omega)
    have hsucc : (k + 1) * tBitUs r.cfg = k * tBitUs r.cfg + tBitUs r.cfg := Nat.succ_mul _ _
    refine ⟨k + 1, ?_, by omega, by omega⟩
    rwa [show t₀ + τ + 1 + tBitUs r.cfg = t₀ + (tValidateUs + (k + 1) * tBitUs r.cfg) by omega] at hsam

include hws his hms hwr hir hmr hpr in
/-- The microsecond in which the start bit begins: the sender drives LOW and the receiver's scan sees it. -/
theorem inFrame_start {e : RefEnv} {a b : Member} (hm : e.members = [a, b]) (hsch : e.schedule = [])
    (ha : a.Holds s a.deadline) (hb : b.Holds r b.deadline) (hs : s.state = TxPhase.sendStart.code)
    (hps : s.cur ≠ 0 → s.pin.dir = .output) (hrs : r.state = RxPhase.recvScan.code) :
    ∃ e', e.tick = .next e' ∧ InFrame s r e.time 0 e' := by
  have pb (a' : Member) (ha' : a'.Holds (sendingBit s 0) (e.time + tBitUs s.cfg)) :=
    driversOf_sendingBit ha' ▸ frameOf_start _ ▸
      receiver_scans (t := e.time) hwr hir hmr hpr hrs hb (s.buf.read s.cur.toNat)
  obtain ⟨e', a', b', ht, htime, hsch', hm', ha', hb'⟩ := RefEnv.tick_polledTo hm hsch ha.period_eq hb.period_eq
    (sender_starts hws his hms ha hs hps) pb
  have hpos := tBitUs_pos hws
  exact ⟨e', ht, htime, hsch', a', b', 0, 0, hm', by simpa using ha', by omega, by omega, by simpa using hb', by omega,
    by simp [tValidateUs, TV_US]⟩

include hws his hms hwr hir hmr hroom hpr hT hok

/-- Every later microsecond before the receiver's last sample. -/
theorem inFrame_tick {e : RefEnv} {t₀ τ : Nat} (h : InFrame s r t₀ τ e)
    (hend : τ + 1 < tValidateUs + 9 * tBitUs s.cfg) : ∃ e', e.tick = .next e' ∧ InFrame s r t₀ (τ + 1) e' := by
  obtain ⟨htime, hsch, a, b, k, j, hm, ha, hlo, hhi, hb, hj, hdue⟩ := h
  have hV : tValidateUs < tBitUs s.cfg := hok
  obtain ⟨k', pa, hlo', hhi'⟩ := sender_polled (others := driversOf [b]) hws his hms ha hlo hhi (by omega)
  obtain ⟨j', pb, hj', hdue'⟩ := receiver_polled (k := k') hwr hir hmr hroom hpr hb hj hdue (by omega) (by omega)
    (by rwa [hT]) (by rwa [hT])
  rw [← htime] at pa pb
  obtain ⟨e', a', b', ht, htime', hsch', hm', ha', hb'⟩ := RefEnv.tick_polledTo hm hsch ha.period_eq hb.period_eq
    pa fun a' ha' => driversOf_sendingBit ha' ▸ pb
  exact ⟨e', ht, by omega, hsch', a', b', k', j', hm', ha', hlo', hhi', hb', hj', hdue'⟩

/-- The microsecond of the last sample: the sender holds the stop bit and the receiver commits. -/
theorem inFrame_commit {e : RefEnv} {t₀ τ : Nat} (h : InFrame s r t₀ τ e)
    (hend : τ + 1 = tValidateUs + 9 * tBitUs s.cfg) :
    ∃ e' a b, e.tick = .next e' ∧ e'.members = [a, b] ∧ b.Committed r (s.buf.read s.cur.toNat) := by
  obtain ⟨htime, hsch, a, b, k, j, hm, ha, hlo, hhi, hb, hj, hdue⟩ := h
  have hV : tValidateUs < tBitUs s.cfg := hok
  obtain ⟨k', pa, hlo', hhi'⟩ := sender_polled (others := driversOf [b]) hws his hms ha hlo hhi (by omega)
  obtain rfl : k' = 9 := bitTime_of_sample hV (by omega) (by omega)
  obtain rfl : j = 9 := by
    have hsucc : (j + 1) * tBitUs r.cfg = j * tBitUs r.cfg + tBitUs r.cfg := Nat.succ_mul _ _
    have : 9 < j + 1 := Nat.lt_of_mul_lt_mul_right (a := tBitUs r.cfg) (by omega)
    omega
  have pb := receiver_commits (t := t₀ + τ + 1) hwr hir hmr hroom hpr hb (by omega)
  rw [← htime] at pa pb
  obtain ⟨e', a', b', ht, -, -, hm', -, hb'⟩ := RefEnv.tick_polledTo hm hsch ha.period_eq hb.period_eq
    pa fun a' ha' => driversOf_sendingBit ha' ▸ frameOf_stop _ ▸ pb
  exact ⟨e', a', b', ht, hm', hb'⟩

/-- From the start bit to the last sample. -/
theorem inFrame_ticks {e : RefEnv} {t₀ : Nat} (h : InFrame s r t₀ 0 e) {n : Nat}
    (hn : n < tValidateUs + 9 * tBitUs s.cfg) : ∃ e', RefEnv.ticks n e = .next e' ∧ InFrame s r t₀ n e' := by
  induction n with
  | zero => exact ⟨e, rfl, h⟩
  | succ n ih =>
    obtain ⟨e₁, hticks, h₁⟩ := ih (by omega)
    obtain ⟨e₂, htick, h₂⟩ := inFrame_tick hws his hms hwr hir hmr hroom hpr hT hok h₁ hn
    refine ⟨e₂, ?_, h₂⟩
    rw [RefEnv.ticks_add, hticks, andThen_ok, RefEnv.ticks_one, htick]

end Delivery

/-- What a receiver holds after a commit: the bytes it held, and the byte behind them. -/
theorem Member.Committed.bytes {r : State} {x : Byte} {m : Member} (h : m.Committed r x) (hbuf : r.buf.wf)
    (hlen : m.state.len.toNat = r.len.toNat + 1) :
    (List.range m.state.len.toNat).map m.state.buf.read = (List.range r.len.toNat).map r.buf.read ++ [x] := by
  rw [hlen, List.range_succ, List.map_append, h.buf_eq, List.map_singleton, Memory.read_write_same hbuf]
  refine congrArg (· ++ [x]) (List.map_congr_left fun i hi => ?_)
  exact Memory.read_write_other (Nat.ne_of_lt (List.mem_range.1 hi)) _ _

theorem Member.Committed.len_toNat {r : State} {x : Byte} {m : Member} (h : m.Committed r x) (hw : r.cfg.wf)
    (hroom : r.len.toNat < r.cfg.capacity) : m.state.len.toNat = r.len.toNat + 1 := by
  have hcap := hw.2.1
  rw [h.len_eq, BitVec.toNat_add]
  exact Nat.mod_eq_of_lt (show r.len.toNat + 1 < 256 by omega)

/-- Settles O51: the microsecond of the start bit, those up to the last sample by `inFrame_ticks`, and the commit. -/
theorem peerOnTheLineReceivesTheByte : Obligations.PeerOnTheLineReceivesTheByte := by
  intro e a b hm hsch hpa hpb hwa hok hT hwb hia hma hsa hib hmb hsb hroom
  obtain ⟨his, ⟨-, hout⟩, -⟩ := hia
  obtain ⟨hir, ⟨hin, -⟩, -, hbuf, -⟩ := hib
  have hpos : 0 < tValidateUs := by decide
  obtain ⟨e₁, h₁, hf₁⟩ := inFrame_start hwa his hma hwb hir hmb (hin hmb) hm hsch ⟨rfl, rfl, hpa⟩
    ⟨rfl, rfl, hpb⟩ hsa (fun hc => hout hma fun h => hc h.2) hsb
  obtain ⟨e₂, h₂, hf₂⟩ := inFrame_ticks hwa his hma hwb hir hmb hroom (hin hmb) hT hok hf₁
    (n := tValidateUs + 9 * tBitUs a.state.cfg - 1) (by omega)
  obtain ⟨e₃, a', b', h₃, hm₃, hc⟩ := inFrame_commit hwa his hma hwb hir hmb hroom (hin hmb) hT hok hf₂
    (by omega)
  have hlen := hc.len_toNat hwb hroom
  refine ⟨e₃, a', b', ?_, hm₃, hc.mode_eq, hc.state_eq, hlen, hc.bytes hbuf hlen, hc.event_eq⟩
  rw [show tValidateUs + 9 * tBitUs a.state.cfg + 1 = 1 + (tValidateUs + 9 * tBitUs a.state.cfg - 1) + 1 by omega]
  rw [RefEnv.ticks_add, RefEnv.ticks_add, RefEnv.ticks_one, h₁, andThen_ok, h₂, andThen_ok, RefEnv.ticks_one, h₃]

end Sys2Proof.Machine
end

section
/-! PROOFS. The effect of every command: its whole next state in each case of its rule, and one inversion lemma for them
all. -/

namespace Sys2Proof.Machine

/-! ### The phases of POLL that deliver no byte -/

section Sending

variable {s : State} (hi : SpecInvariants s) (hm : s.mode = .sending) (hs : s.state = TxPhase.sendPause.code)
  (he : timerExpired s = true)
include hi hm hs he

/-- SendPause at its expiry, with a byte left to send (41_transmit R124). -/
theorem poll_sendPause_more (hc : s.cur.toNat + 1 < s.len.toNat) :
    exec .poll s = .next
      { afterExpiry s with cur := s.cur + 1, state := TxPhase.sendStart.code, obs := ⟨.nothing, [], .none⟩ } := by
  rw [poll_sendPause hi hm hs, gated_true (s := startCommand s) he]
  exact congrArg Host.Outcome.next (if_neg (Nat.not_le.2 hc))

/-- SendPause at its expiry, after the last byte: back to Receiving (41_transmit R124). -/
theorem poll_sendPause_last (hc : s.len.toNat ≤ s.cur.toNat + 1) :
    exec .poll s = .next
      { afterExpiry s with
        mode := .receiving, state := RxPhase.recvScan.code, len := 0, bitc := 0, cur := 0, idle := 0
        pin := ⟨.input, s.pin.out⟩
        obs := ⟨.nothing, [.dirIn], .txDone s.len.toNat⟩ } := by
  rw [poll_sendPause hi hm hs, gated_true (s := startCommand s) he]
  exact congrArg Host.Outcome.next (if_pos hc)

end Sending

section Receiving

variable {s : State} (hi : SpecInvariants s) (hm : s.mode = .receiving)
include hi hm

/-- POLL with a full buffer does nothing (43_driver_and_host R171). -/
theorem poll_full (hf : s.cfg.capacity ≤ s.len.toNat) : exec .poll s = .next (startCommand s) := by
  have hr : hasRoom s = false := by simpa [hasRoom] using hf
  simp only [exec_poll, execPoll_sound hi, hm, hr]
  rfl

/-- RecvScan on a HIGH sample within the threshold: it counts as idle (42_receive R141). -/
theorem poll_recvScan_idle (hs : s.state = RxPhase.recvScan.code) (hl : pinLevel s = HIGH)
    (hc : s.idle + 1 ≤ s.cfg.idleThreshold) :
    exec .poll s = .next { afterPinRead s with idle := s.idle + 1, obs := ⟨.nothing, [], .none⟩ } := by
  rw [poll_recvScan hi hm hs]
  simp only [recvScan, pinLevel_startCommand, hl]
  exact congrArg Host.Outcome.next (if_neg (Nat.not_lt.2 hc))

/-- RecvScan on a HIGH sample past the threshold: the idle flush (42_receive R141). -/
theorem poll_recvScan_flush (hs : s.state = RxPhase.recvScan.code) (hl : pinLevel s = HIGH)
    (hc : s.cfg.idleThreshold < s.idle + 1) :
    exec .poll s = .next
      { afterPinRead s with len := 0, bitc := 0, cur := 0, idle := 0, obs := ⟨.nothing, [], .idleTimeout⟩ } := by
  rw [poll_recvScan hi hm hs]
  simp only [recvScan, pinLevel_startCommand, hl]
  exact congrArg Host.Outcome.next (if_pos hc)

/-- RecvValidate on a HIGH sample at its expiry: noise (42_receive R142). -/
theorem poll_recvValidate_high (hs : s.state = RxPhase.recvValidate.code) (he : timerExpired s = true)
    (hl : pinLevel (afterExpiry s) = HIGH) :
    exec .poll s = .next
      { afterPinRead (afterExpiry s) with
        len := 0, bitc := 0, cur := 0, state := RxPhase.recvScan.code, obs := ⟨.nothing, [], .startInvalid⟩ } := by
  rw [poll_recvValidate hi hm hs, gated_true (s := startCommand s) he]
  simp only [recvValidateEnd, pinLevel_afterExpiry_startCommand, hl]
  rfl

/-- RecvStop on a LOW sample at its expiry: the byte is discarded (42_receive R144). -/
theorem poll_recvStop_low (hs : s.state = RxPhase.recvStop.code) (he : timerExpired s = true)
    (hl : pinLevel (afterExpiry s) = LOW) :
    exec .poll s = .next
      { afterPinRead (afterExpiry s) with
        state := RxPhase.recvPause.code, obs := ⟨.nothing, [], .stopMissing s.cur⟩ } := by
  rw [poll_recvStop hi hm hs, gated_true (s := startCommand s) he]
  simp only [recvStopEnd, pinLevel_afterExpiry_startCommand, hl]
  rfl

/-- RecvPause with room: back to RecvScan (42_receive R145). -/
theorem poll_recvPause (hr : s.len.toNat < s.cfg.capacity) (hs : s.state = RxPhase.recvPause.code) :
    exec .poll s = .next { s with state := RxPhase.recvScan.code, obs := ⟨.nothing, [], .none⟩ } := by
  simp only [poll_receiving hi hm hr, rxStep, startCommand_state, hs, rxPhaseOf_code]
  rfl

end Receiving

/-! ### ENQ and DRAIN -/

section Enq

variable {s : State} (b : Byte)

/-- ENQ while Sending with room: the byte goes behind the others (43_driver_and_host R172). -/
theorem enq_append (hm : s.mode = .sending) (hr : s.len.toNat < s.cfg.capacity) :
    exec (.enq b) s = .next
      { s with buf := s.buf.write s.len.toNat b, len := s.len + 1, obs := ⟨.enqueued .accept, [], .none⟩ } := by
  replace hm : (startCommand s).mode = .sending := hm
  simp only [exec_enq, execEnq, hm, hasRoom_startCommand, (hasRoom_eq_true s).2 hr, if_true]
  exact congrArg (andThen · _) (memWrite_ok (s := startCommand s) (i := s.len.toNat) hr b)

/-- ENQ while Sending with a full buffer (43_driver_and_host R172). -/
theorem enq_full (hm : s.mode = .sending) (hr : s.cfg.capacity ≤ s.len.toNat) :
    exec (.enq b) s = .next { s with obs := ⟨.enqueued .full, [], .enqFull b⟩ } := by
  have hr' : hasRoom s = false := by simpa [hasRoom] using hr
  replace hm : (startCommand s).mode = .sending := hm
  simp only [exec_enq, execEnq, hm, hasRoom_startCommand, hr']
  rfl

/-- ENQ in an empty RecvScan starts a transmission (43_driver_and_host R172). -/
theorem enq_start (hw : s.cfg.wf) (hm : s.mode = .receiving) (hs : s.state = RxPhase.recvScan.code)
    (hl : s.len = 0) :
    exec (.enq b) s = .next
      { s with buf := s.buf.write 0 b, len := 1, bitc := 0, cur := 0, mode := .sending,
               state := TxPhase.sendStart.code, obs := ⟨.enqueued .accept, [], .none⟩ } := by
  simp only [exec_enq, execEnq, startCommand_mode, hm, startCommand_state, hs, isEmpty_startCommand,
    (isEmpty_eq_true s).2 hl, and_self, if_true]
  exact congrArg (andThen · _) (memWrite_ok (s := flush (startCommand s)) (i := 0) hw.1 b)

/-- ENQ anywhere else while Receiving (43_driver_and_host R172). -/
theorem enq_busy (hm : s.mode = .receiving) (hb : ¬(s.state = RxPhase.recvScan.code ∧ s.len = 0)) :
    exec (.enq b) s = .next { s with obs := ⟨.enqueued .busy, [], .enqBusy b⟩ } := by
  replace hm : (startCommand s).mode = .receiving := hm
  simp only [exec_enq, execEnq, hm, startCommand_state, isEmpty_startCommand, isEmpty_eq_true, if_neg hb]
  rfl

end Enq

section Drain

variable {s : State}

/-- DRAIN while Receiving (43_driver_and_host R173). -/
theorem drain_receiving (hm : s.mode = .receiving) (hlen : s.len.toNat ≤ s.cfg.capacity) :
    exec .drain s = .next
      { s with len := 0
               obs := ⟨.drained s.len.toNat ((List.range s.len.toNat).map s.buf.read), [], .none⟩ } := by
  have hread : memReadRange (startCommand s) 0 s.len.toNat = .next ((List.range s.len.toNat).map s.buf.read) := by
    rw [List.range_eq_range']
    exact memReadRange_ok (s := startCommand s) hlen (Nat.le_of_eq (Nat.zero_add _))
  replace hm : (startCommand s).mode = .receiving := hm
  simp only [exec_drain, execDrain, hm, startCommand_len, hread, andThen_ok, List.length_map, List.length_range]
  rw [← hm]
  rfl

/-- DRAIN while Sending (43_driver_and_host R173). -/
theorem drain_sending (hm : s.mode = .sending) :
    exec .drain s = .next { s with obs := ⟨.drained 0 [], [], .none⟩ } := by
  replace hm : (startCommand s).mode = .sending := hm
  simp only [exec_drain, execDrain, hm]
  rfl

/-- A DRAIN that answers has read only indices below `C` (20_memory R50). -/
theorem memReadRange_within {s : State} {i n : Nat} {bs : List Byte} (h : memReadRange s i n = .next bs)
    (hi : i ≤ s.cfg.capacity) : i + n ≤ s.cfg.capacity := by
  induction n generalizing i bs with
  | zero => exact hi
  | succ n ih =>
    obtain ⟨b, hb, h⟩ := andThen_next h
    obtain ⟨rest, hrest, -⟩ := andThen_next h
    have := ih hrest (memRead_next.1 hb).2.1
    omega

theorem len_le_of_drain {t : State} (hm : s.mode = .receiving) (h : exec .drain s = .next t) :
    s.len.toNat ≤ s.cfg.capacity := by
  simp only [exec_drain, execDrain, startCommand_mode, hm] at h
  obtain ⟨bs, hbs, -⟩ := andThen_next h
  simpa using memReadRange_within hbs (Nat.zero_le _)

end Drain

/-! ### Every effect -/

/-- `Effect s i t`: the command `i` takes `s` to `t`, by one case of its rule, named by the constructor
(43_driver_and_host R171 to R175, 41_transmit R121 to R124, 42_receive R141 to R145). -/
inductive Effect (s : State) : Instr → State → Prop
  | reset : Effect s .reset
      { s with
        mode := .receiving, state := RxPhase.recvScan.code, len := 0, bitc := 0, cur := 0, idle := 0
        pin := ⟨.input, s.pin.out⟩, obs := ⟨.nothing, [.dirIn], .none⟩ }
  | status : Effect s .status { s with obs := ⟨.statusWord (statusOf s), [], .none⟩ }
  | drain (hm : s.mode = .receiving) (hlen : s.len.toNat ≤ s.cfg.capacity) : Effect s .drain
      { s with
        len := 0, obs := ⟨.drained s.len.toNat ((List.range s.len.toNat).map s.buf.read), [], .none⟩ }
  | drainNothing (hm : s.mode = .sending) : Effect s .drain { s with obs := ⟨.drained 0 [], [], .none⟩ }
  | enqAppend (b : Byte) (hm : s.mode = .sending) (hr : s.len.toNat < s.cfg.capacity) : Effect s (.enq b)
      { s with buf := s.buf.write s.len.toNat b, len := s.len + 1, obs := ⟨.enqueued .accept, [], .none⟩ }
  | enqFull (b : Byte) (hm : s.mode = .sending) (hr : s.cfg.capacity ≤ s.len.toNat) : Effect s (.enq b)
      { s with obs := ⟨.enqueued .full, [], .enqFull b⟩ }
  | enqStart (b : Byte) (hm : s.mode = .receiving) (hs : s.state = RxPhase.recvScan.code) (hl : s.len = 0) :
      Effect s (.enq b)
      { s with
        buf := s.buf.write 0 b, len := 1, bitc := 0, cur := 0, mode := .sending
        state := TxPhase.sendStart.code, obs := ⟨.enqueued .accept, [], .none⟩ }
  | enqBusy (b : Byte) (hm : s.mode = .receiving) (hb : ¬(s.state = RxPhase.recvScan.code ∧ s.len = 0)) :
      Effect s (.enq b) { s with obs := ⟨.enqueued .busy, [], .enqBusy b⟩ }
  | pollFull (hm : s.mode = .receiving) (hf : s.cfg.capacity ≤ s.len.toNat) : Effect s .poll (startCommand s)
  | pollSkip (hg : isGated s.state = true) (he : timerExpired s = false) :
      Effect s .poll (afterExpiry (startCommand s))
  | sendStart (hm : s.mode = .sending) (hs : s.state = TxPhase.sendStart.code) : Effect s .poll
      { s with
        state := TxPhase.sendData.code, bitc := 0
        pin := ⟨if s.cur = 0 then .output else s.pin.dir, LOW⟩
        timer := ⟨true, tBitUs s.cfg, false⟩
        obs := ⟨.nothing, (if s.cur = 0 then [.dirOut] else []) ++ [.low, .arm (tBitUs s.cfg)], .none⟩ }
  | sendData (hm : s.mode = .sending) (hs : s.state = TxPhase.sendData.code) (he : timerExpired s = true) :
      Effect s .poll
      { afterExpiry s with
        bitc := s.bitc + 1
        state := if s.bitc + 1 = 8 then TxPhase.sendStop.code else TxPhase.sendData.code
        pin := ⟨s.pin.dir, (s.buf.read s.cur.toNat).getLsbD s.bitc.toNat⟩
        timer := ⟨true, tBitUs s.cfg, false⟩
        obs := ⟨.nothing, [.arm (tBitUs s.cfg),
          if (s.buf.read s.cur.toNat).getLsbD s.bitc.toNat then .high else .low], .none⟩ }
  | sendStop (hm : s.mode = .sending) (hs : s.state = TxPhase.sendStop.code) (he : timerExpired s = true) :
      Effect s .poll
      { afterExpiry s with
        state := TxPhase.sendPause.code, pin := ⟨s.pin.dir, HIGH⟩, timer := ⟨true, tBitUs s.cfg, false⟩
        obs := ⟨.nothing, [.high, .arm (tBitUs s.cfg)], .none⟩ }
  | sendMore (hm : s.mode = .sending) (hs : s.state = TxPhase.sendPause.code) (he : timerExpired s = true)
      (hc : s.cur.toNat + 1 < s.len.toNat) : Effect s .poll
      { afterExpiry s with cur := s.cur + 1, state := TxPhase.sendStart.code, obs := ⟨.nothing, [], .none⟩ }
  | sendLast (hm : s.mode = .sending) (hs : s.state = TxPhase.sendPause.code) (he : timerExpired s = true)
      (hc : s.len.toNat = s.cur.toNat + 1) : Effect s .poll
      { afterExpiry s with
        mode := .receiving, state := RxPhase.recvScan.code, len := 0, bitc := 0, cur := 0, idle := 0
        pin := ⟨.input, s.pin.out⟩
        obs := ⟨.nothing, [.dirIn], .txDone s.len.toNat⟩ }
  | scanStart (hm : s.mode = .receiving) (hs : s.state = RxPhase.recvScan.code) (hl : pinLevel s = LOW) :
      Effect s .poll
      { afterPinRead s with
        idle := 0, state := RxPhase.recvValidate.code, timer := ⟨true, tValidateUs, false⟩
        obs := ⟨.nothing, [.arm tValidateUs], .none⟩ }
  | scanIdle (hm : s.mode = .receiving) (hs : s.state = RxPhase.recvScan.code) (hl : pinLevel s = HIGH)
      (hc : s.idle + 1 ≤ s.cfg.idleThreshold) : Effect s .poll
      { afterPinRead s with idle := s.idle + 1, obs := ⟨.nothing, [], .none⟩ }
  | scanFlush (hm : s.mode = .receiving) (hs : s.state = RxPhase.recvScan.code) (hl : pinLevel s = HIGH)
      (hc : s.cfg.idleThreshold < s.idle + 1) : Effect s .poll
      { afterPinRead s with len := 0, bitc := 0, cur := 0, idle := 0, obs := ⟨.nothing, [], .idleTimeout⟩ }
  | validateStart (hm : s.mode = .receiving) (hs : s.state = RxPhase.recvValidate.code) (he : timerExpired s = true)
      (hl : pinLevel (afterExpiry s) = LOW) : Effect s .poll
      { afterPinRead (afterExpiry s) with
        bitc := 0, cur := 0, state := RxPhase.recvData.code, timer := ⟨true, tBitUs s.cfg, false⟩
        obs := ⟨.nothing, [.arm (tBitUs s.cfg)], .none⟩ }
  | validateNoise (hm : s.mode = .receiving) (hs : s.state = RxPhase.recvValidate.code) (he : timerExpired s = true)
      (hl : pinLevel (afterExpiry s) = HIGH) : Effect s .poll
      { afterPinRead (afterExpiry s) with
        len := 0, bitc := 0, cur := 0, state := RxPhase.recvScan.code, obs := ⟨.nothing, [], .startInvalid⟩ }
  | recvData (hm : s.mode = .receiving) (hs : s.state = RxPhase.recvData.code) (he : timerExpired s = true) :
      Effect s .poll
      { afterPinRead (afterExpiry s) with
        cur := orSample s.cur (pinLevel (afterExpiry s)) s.bitc.toNat
        bitc := s.bitc + 1
        state := if s.bitc + 1 = 8 then RxPhase.recvStop.code else RxPhase.recvData.code
        timer := ⟨true, tBitUs s.cfg, false⟩
        obs := ⟨.nothing, [.arm (tBitUs s.cfg)], .none⟩ }
  | stopCommit (hm : s.mode = .receiving) (hs : s.state = RxPhase.recvStop.code) (he : timerExpired s = true)
      (hl : pinLevel (afterExpiry s) = HIGH) (hr : s.len.toNat < s.cfg.capacity) : Effect s .poll
      { afterPinRead (afterExpiry s) with
        buf := s.buf.write s.len.toNat s.cur, len := s.len + 1, state := RxPhase.recvPause.code
        obs := ⟨.nothing, [], .commit s.cur s.len.toNat⟩ }
  | stopMissing (hm : s.mode = .receiving) (hs : s.state = RxPhase.recvStop.code) (he : timerExpired s = true)
      (hl : pinLevel (afterExpiry s) = LOW) : Effect s .poll
      { afterPinRead (afterExpiry s) with
        state := RxPhase.recvPause.code, obs := ⟨.nothing, [], .stopMissing s.cur⟩ }
  | recvPause (hm : s.mode = .receiving) (hs : s.state = RxPhase.recvPause.code)
      (hr : s.len.toNat < s.cfg.capacity) : Effect s .poll
      { s with state := RxPhase.recvScan.code, obs := ⟨.nothing, [], .none⟩ }

/-- The command `i` answers a next state, and this state is one of its effects. -/
def Completes (i : Instr) (s : State) : Prop := ∃ t, exec i s = .next t ∧ Effect s i t

/-- The phase that a legal `state` names (10_state R22). -/
theorem rxPhase_of_legal {s : State} (h : StateLegalForMode s) (hm : s.mode = .receiving) :
    ∃ p : RxPhase, s.state = p.code := by
  rw [StateLegalForMode, hm] at h
  obtain ⟨p, hp⟩ := Option.isSome_iff_exists.1 h
  exact ⟨p, rxPhaseOf_eq_some.1 hp⟩

theorem txPhase_of_legal {s : State} (h : StateLegalForMode s) (hm : s.mode = .sending) :
    ∃ p : TxPhase, s.state = p.code := by
  rw [StateLegalForMode, hm] at h
  obtain ⟨p, hp⟩ := Option.isSome_iff_exists.1 h
  exact ⟨p, txPhaseOf_eq_some.1 hp⟩

section Poll

variable {s : State} (hi : SpecInvariants s)
include hi

/-- In a gated state it is enough to see what POLL does at the expiry. -/
theorem poll_completes_gated (hg : isGated s.state = true) (h : timerExpired s = true → Completes .poll s) :
    Completes .poll s := by
  cases he : timerExpired s with
  | false => exact ⟨_, poll_gated_skip hi hg he, .pollSkip hg he⟩
  | true => exact h he

theorem poll_completes_sending (hw : s.cfg.wf) (hm : s.mode = .sending) : Completes .poll s := by
  obtain ⟨p, hs⟩ := txPhase_of_legal hi.2.1 hm
  have gated (hg : isGated p.code = true) := poll_completes_gated hi (by rwa [hs])
  cases p with
  | sendStart => exact ⟨_, poll_sendStart_eq hw hi hm hs, .sendStart hm hs⟩
  | sendData => exact gated rfl fun he => ⟨_, poll_sendData_due hi hm hs he, .sendData hm hs he⟩
  | sendStop => exact gated rfl fun he => ⟨_, poll_sendStop_due hi hm hs he, .sendStop hm hs he⟩
  | sendPause =>
    refine gated rfl fun he => ?_
    by_cases hc : s.cur.toNat + 1 < s.len.toNat
    · exact ⟨_, poll_sendPause_more hi hm hs he hc, .sendMore hm hs he hc⟩
    · have hcur := (hi.2.2.1 hm).2
      exact ⟨_, poll_sendPause_last hi hm hs he (by omega), .sendLast hm hs he (by omega)⟩

theorem poll_completes_receiving (hm : s.mode = .receiving) : Completes .poll s := by
  obtain ⟨p, hs⟩ := rxPhase_of_legal hi.2.1 hm
  have gated (hg : isGated p.code = true) := poll_completes_gated hi (by rwa [hs])
  cases p with
  | recvScan =>
    cases hl : pinLevel s with
    | false => exact ⟨_, poll_recvScan_low hi hm hs hl, .scanStart hm hs hl⟩
    | true =>
      rcases Nat.lt_or_ge s.cfg.idleThreshold (s.idle + 1) with hc | hc
      · exact ⟨_, poll_recvScan_flush hi hm hs hl hc, .scanFlush hm hs hl hc⟩
      · exact ⟨_, poll_recvScan_idle hi hm hs hl hc, .scanIdle hm hs hl hc⟩
  | recvValidate =>
    refine gated rfl fun he => ?_
    cases hl : pinLevel (afterExpiry s) with
    | false => exact ⟨_, poll_recvValidate_low hi hm hs he hl, .validateStart hm hs he hl⟩
    | true => exact ⟨_, poll_recvValidate_high hi hm hs he hl, .validateNoise hm hs he hl⟩
  | recvData => exact gated rfl fun he => ⟨_, poll_recvData_due hi hm hs he, .recvData hm hs he⟩
  | recvStop =>
    refine gated rfl fun he => ?_
    cases hl : pinLevel (afterExpiry s) with
    | false => exact ⟨_, poll_recvStop_low hi hm hs he hl, .stopMissing hm hs he hl⟩
    | true =>
      have hr := room_of_not_pause hi hm (by rw [hs]; decide)
      exact ⟨_, poll_recvStop_high hi hm hs he hl, .stopCommit hm hs he hl hr⟩
  | recvPause =>
    rcases Nat.lt_or_ge s.len.toNat s.cfg.capacity with hr | hf
    · exact ⟨_, poll_recvPause hi hm hr hs, .recvPause hm hs hr⟩
    · exact ⟨_, poll_full hi hm hf, .pollFull hm hf⟩

/-- POLL answers in every state of 10_state R28. -/
theorem poll_completes (hw : s.cfg.wf) : Completes .poll s := by
  cases hm : s.mode with
  | receiving => exact poll_completes_receiving hi hm
  | sending => exact poll_completes_sending hi hw hm

end Poll

/-- ENQ answers in every state. -/
theorem enq_completes {s : State} (hw : s.cfg.wf) (b : Byte) : Completes (.enq b) s := by
  cases hm : s.mode with
  | receiving =>
    by_cases hb : s.state = RxPhase.recvScan.code ∧ s.len = 0
    · exact ⟨_, enq_start b hw hm hb.1 hb.2, .enqStart b hm hb.1 hb.2⟩
    · exact ⟨_, enq_busy b hm hb, .enqBusy b hm hb⟩
  | sending =>
    rcases Nat.lt_or_ge s.len.toNat s.cfg.capacity with hr | hr
    · exact ⟨_, enq_append b hm hr, .enqAppend b hm hr⟩
    · exact ⟨_, enq_full b hm hr, .enqFull b hm hr⟩

/-- DRAIN answers where `len` is in its range (20_memory R50). -/
theorem drain_completes {s : State} (hlen : s.mode = .receiving → s.len.toNat ≤ s.cfg.capacity) :
    Completes .drain s := by
  cases hm : s.mode with
  | receiving => exact ⟨_, drain_receiving hm (hlen hm), .drain hm (hlen hm)⟩
  | sending => exact ⟨_, drain_sending hm, .drainNothing hm⟩

/-- Every command answers in every state of 10_state R28. -/
theorem exec_completes {s : State} (hw : s.cfg.wf) (hi : SpecInvariants s) (i : Instr) : Completes i s := by
  cases i with
  | reset => exact ⟨_, rfl, .reset⟩
  | poll => exact poll_completes hi hw
  | enq b => exact enq_completes hw b
  | drain => exact drain_completes fun _ => hi.1.1
  | status => exact ⟨_, rfl, .status⟩

theorem Completes.effect {i : Instr} {s t : State} (hc : Completes i s) (h : exec i s = .next t) : Effect s i t := by
  obtain ⟨u, hu, he⟩ := hc
  obtain rfl : u = t := by injection hu.symm.trans h
  exact he

/-- A command that answers, answers one of its effects. -/
theorem effect_of_exec {i : Instr} {s t : State} (hw : s.cfg.wf) (h : exec i s = .next t) : Effect s i t := by
  refine Completes.effect ?_ h
  cases i with
  | reset => exact ⟨_, rfl, .reset⟩
  | poll => exact poll_completes (execPoll_cases h).1 hw
  | enq b => exact enq_completes hw b
  | drain => exact drain_completes fun hm => len_le_of_drain hm h
  | status => exact ⟨_, rfl, .status⟩

end Sys2Proof.Machine
end

section
/-! PROOFS. The invariants of 10_state R28 with the pin, timer and buffer rules beside them: what they ask in each phase,
that every effect keeps them, and runs from power-on. -/

namespace Sys2Proof.Machine

/-! ### The invariants, phase by phase -/

/-- The bit cursor in a transmit phase (INV4 of 10_state R28). -/
def TxPhase.Cursor (bitc : BitVec 4) : TxPhase → Prop
  | .sendStart => bitc = 0 ∨ bitc = 8
  | .sendData => bitc.toNat ≤ 7
  | .sendStop => bitc = 8
  | .sendPause => bitc = 8

/-- The bit cursor and the accumulator in a receive phase (INV5 of 10_state R28). -/
def RxPhase.Cursor (bitc : BitVec 4) (cur : Byte) : RxPhase → Prop
  | .recvScan => True
  | .recvValidate => True
  | .recvData => bitc.toNat ≤ 7 ∧ cur.toNat < 2 ^ bitc.toNat
  | .recvStop => bitc = 8
  | .recvPause => True

theorem TxPhase.code_injective : Function.Injective TxPhase.code := by
  intro p q h
  simpa using congrArg txPhaseOf h

theorem RxPhase.code_injective : Function.Injective RxPhase.code := by
  intro p q h
  simpa using congrArg rxPhaseOf h

theorem txBitCursor_iff {s : State} {p : TxPhase} (hs : s.state = p.code) : TxBitCursor s ↔ p.Cursor s.bitc := by
  simp only [TxBitCursor, hs, TxPhase.code_injective.eq_iff]
  cases p <;> simp [TxPhase.Cursor]

theorem rxBitCursor_iff {s : State} {p : RxPhase} (hs : s.state = p.code) :
    RxBitCursor s ↔ p.Cursor s.bitc s.cur := by
  simp only [RxBitCursor, hs, RxPhase.code_injective.eq_iff]
  cases p <;> simp [RxPhase.Cursor]

theorem TxPhase.Cursor.le {bitc : BitVec 4} {p : TxPhase} (h : p.Cursor bitc) : bitc.toNat ≤ 8 := by
  cases p with
  | sendStart => rcases h with rfl | rfl <;> decide
  | sendData => exact Nat.le_succ_of_le h
  | sendStop => subst h; decide
  | sendPause => subst h; decide

theorem gatedIsArmed_of_phase {s : State} {c : BitVec 4} (hs : s.state = c)
    (h : isGated c = false ∨ s.timer.armed = true) : GatedIsArmed s := by
  subst hs
  exact fun hg => h.resolve_left (Bool.not_eq_false _ ▸ hg)

/-- What `Inv` asks while Sending, in the phase `p`. -/
theorem inv_sending {s : State} {p : TxPhase} (hm : s.mode = .sending) (hs : s.state = p.code)
    (hlen : s.len.toNat ≤ s.cfg.capacity) (hcur : s.cur.toNat < s.len.toNat) (hbit : p.Cursor s.bitc)
    (hidle : s.idle ≤ s.cfg.idleThreshold) (harm : isGated p.code = false ∨ s.timer.armed = true)
    (hpin : p = .sendStart ∧ s.cur = 0 ∨ s.pin.dir = .output) (hdur : ArmedDuration s) (hbuf : BufferInBounds s) :
    Inv s := by
  have hne : s.mode ≠ .receiving := by rw [hm]; decide
  refine ⟨⟨⟨hlen, hbit.le, hidle⟩, stateLegal_tx hm hs, fun _ => ⟨by omega, hcur⟩, (txBitCursor_iff hs).2 hbit,
    rxBitCursor_tx hs, fun h => absurd h hne, gatedIsArmed_of_phase hs harm⟩,
    ⟨fun h => absurd h hne, fun _ hn => ?_⟩, hdur, hbuf⟩
  rcases hpin with ⟨rfl, hc⟩ | hpin
  · exact absurd ⟨hs, hc⟩ hn
  · exact hpin

/-- What `Inv` asks while Receiving, in the phase `p`. -/
theorem inv_receiving {s : State} {p : RxPhase} (hm : s.mode = .receiving) (hs : s.state = p.code)
    (hlen : s.len.toNat < s.cfg.capacity ∨ p = .recvPause ∧ s.len.toNat ≤ s.cfg.capacity)
    (hbit : s.bitc.toNat ≤ 8) (hcur : p.Cursor s.bitc s.cur) (hidle : s.idle ≤ s.cfg.idleThreshold)
    (harm : isGated p.code = false ∨ s.timer.armed = true) (hpin : s.pin.dir = .input) (hdur : ArmedDuration s)
    (hbuf : BufferInBounds s) : Inv s := by
  have hne : s.mode ≠ .sending := by rw [hm]; decide
  refine ⟨⟨⟨by omega, hbit, hidle⟩, stateLegal_rx hm hs, fun h => absurd h hne, txBitCursor_rx hs,
    (rxBitCursor_iff hs).2 hcur, fun _ hf => ?_, gatedIsArmed_of_phase hs harm⟩,
    ⟨fun _ => hpin, fun h => absurd h hne⟩, hdur, hbuf⟩
  rcases hlen with hr | ⟨rfl, -⟩
  · exact absurd hf hr.ne
  · exact hs

/-- The state of a receiver that has nothing: RecvScan with an empty buffer. -/
theorem inv_emptyScan {s : State} (hw : s.cfg.wf) (hm : s.mode = .receiving) (hs : s.state = RxPhase.recvScan.code)
    (hlen : s.len = 0) (hbit : s.bitc = 0) (hidle : s.idle ≤ s.cfg.idleThreshold) (hpin : s.pin.dir = .input)
    (hdur : ArmedDuration s) (hbuf : BufferInBounds s) : Inv s :=
  inv_receiving (p := .recvScan) hm hs (.inl (hlen ▸ hw.1)) (hbit ▸ Nat.zero_le _) trivial hidle (.inl rfl) hpin hdur
    hbuf

/-! ### What the effects change -/

theorem len_succ_toNat {s : State} (hw : s.cfg.wf) (hr : s.len.toNat < s.cfg.capacity) :
    (s.len + 1).toNat = s.len.toNat + 1 := by
  have hcap := hw.2.1
  bv_omega

/-- A store at an index below `C` keeps the buffer's form and bounds (20_memory R50). -/
theorem bufferInBounds_write {s : State} (h : BufferInBounds s) {i : Nat} (hi : i < s.cfg.capacity) (v : Byte) :
    (s.buf.write i v).wf ∧ ∀ c ∈ s.buf.write i v, c.1 < s.cfg.capacity := by
  refine ⟨Memory.write_wf h.1 i v, fun c hc => ?_⟩
  rcases Memory.write_mem hc with rfl | hc
  · exact hi
  · exact h.2 c hc

/-- A sample put into bit `k` leaves the accumulator below `2 ^ (k + 1)` (INV5 of 10_state R28). -/
theorem orSample_lt {acc : Byte} {k : Nat} (h : acc.toNat < 2 ^ k) (v : Level) :
    (orSample acc v k).toNat < 2 ^ (k + 1) := by
  have hpow : 2 ^ (k + 1) = 2 ^ k * 2 := Nat.pow_succ ..
  have hbit : ((if v then 1#8 else 0#8) <<< k).toNat < 2 ^ (k + 1) := by
    rw [BitVec.toNat_shiftLeft, Nat.shiftLeft_eq]
    refine Nat.lt_of_le_of_lt (Nat.mod_le _ _) ?_
    cases v <;> simp [Nat.pow_succ]
  rw [orSample, BitVec.toNat_or]
  exact Nat.or_lt_two_pow (by omega) hbit

/-- The bit cursor after a data bit is sent, in the phase that follows (41_transmit R122). -/
theorem TxPhase.cursor_after_bit {bitc : BitVec 4} (h : bitc.toNat ≤ 7) :
    (if bitc + 1 = 8 then TxPhase.sendStop else TxPhase.sendData).Cursor (bitc + 1) := by
  split
  · assumption
  · show (bitc + 1).toNat ≤ 7
    bv_omega

/-- The bit cursor and the accumulator after a data bit is sampled, in the phase that follows (42_receive R143). -/
theorem RxPhase.cursor_after_bit {bitc : BitVec 4} {acc : Byte} (h : bitc.toNat ≤ 7)
    (hacc : acc.toNat < 2 ^ bitc.toNat) (v : Level) :
    (if bitc + 1 = 8 then RxPhase.recvStop else RxPhase.recvData).Cursor (bitc + 1) (orSample acc v bitc.toNat) := by
  have hsucc : (bitc + 1).toNat = bitc.toNat + 1 := by bv_omega
  split
  · assumption
  · exact ⟨by bv_omega, hsucc ▸ orSample_lt hacc v⟩

/-- Outside RecvPause there is room (INV6 of 10_state R28). -/
theorem room_of_phase {s : State} {p : RxPhase} (hi : SpecInvariants s) (hm : s.mode = .receiving)
    (hs : s.state = p.code) (hp : p ≠ .recvPause) : s.len.toNat < s.cfg.capacity :=
  room_of_not_pause hi hm fun h => hp (RxPhase.code_injective (hs.symm.trans h))

/-- From the first SendData on the pin is an output (30_encoding R73). -/
theorem output_of_phase {s : State} {p : TxPhase} (hi : Inv s) (hm : s.mode = .sending) (hs : s.state = p.code)
    (hp : p ≠ .sendStart) : s.pin.dir = .output :=
  have ⟨_, ⟨_, hout⟩, _⟩ := hi
  hout hm fun h => hp (TxPhase.code_injective (hs.symm.trans h.1))

/-- Every effect of a command keeps the invariants. -/
theorem Effect.keeps_inv {i : Instr} {s t : State} (he : Effect s i t) (hw : s.cfg.wf) (hi : Inv s) : Inv t := by
  obtain ⟨⟨⟨hlen, hbit, hidle⟩, hlegal, hbyte, htx, hrx, -, harm⟩, ⟨hin, hout⟩, hdur, hbuf⟩ := id hi
  have hpos : 0 < s.cfg.capacity := hw.1
  have output {p : TxPhase} := output_of_phase (p := p) hi
  have room {p : RxPhase} := room_of_phase (p := p) hi.1
  cases he with
  | reset =>
    exact inv_emptyScan hw rfl rfl rfl rfl (Nat.zero_le _) rfl hdur hbuf
  | status => exact hi
  | drain hm =>
    exact ⟨⟨⟨Nat.zero_le _, hbit, hidle⟩, hlegal, fun h => absurd (hm.symm.trans h) (by decide), htx, hrx,
      fun _ h => absurd h hpos.ne, harm⟩, ⟨hin, hout⟩, hdur, hbuf⟩
  | drainNothing => exact hi
  | enqAppend b hm hr =>
    have hsucc := len_succ_toNat hw hr
    obtain ⟨hone, hcur⟩ := hbyte hm
    exact ⟨⟨⟨hsucc.trans_le hr, hbit, hidle⟩, hlegal,
      fun _ => ⟨hsucc ▸ Nat.le_add_left 1 _, hsucc ▸ Nat.lt_succ_of_lt hcur⟩, htx, hrx,
      fun h => absurd (hm.symm.trans h) (by decide), harm⟩, ⟨hin, hout⟩, hdur, bufferInBounds_write hbuf hr b⟩
  | enqFull => exact hi
  | enqStart b =>
    exact inv_sending (p := .sendStart) rfl rfl hpos Nat.one_pos (.inl rfl) hidle (.inl rfl) (.inl ⟨rfl, rfl⟩) hdur
      (bufferInBounds_write hbuf hpos b)
  | enqBusy => exact hi
  | pollFull => exact hi
  | pollSkip => exact hi
  | sendStart hm hs =>
    refine inv_sending (p := .sendData) hm rfl hlen (hbyte hm).2 (Nat.zero_le 7) hidle (.inr rfl) (.inr ?_)
      (fun _ => .inr rfl) hbuf
    show (if s.cur = 0 then .output else s.pin.dir) = PinDir.output
    split
    · rfl
    · exact hout hm fun h => absurd h.2 ‹_›
  | sendData hm hs he =>
    exact inv_sending hm (apply_ite TxPhase.code _ _ _).symm hlen (hbyte hm).2
      (TxPhase.cursor_after_bit ((txBitCursor_iff hs).1 htx)) hidle (.inr rfl) (.inr (output hm hs (by decide)))
      (fun _ => .inr rfl) hbuf
  | sendStop hm hs he =>
    exact inv_sending (p := .sendPause) hm rfl hlen (hbyte hm).2 ((txBitCursor_iff hs).1 htx) hidle (.inr rfl)
      (.inr (output hm hs (by decide))) (fun _ => .inr rfl) hbuf
  | sendMore hm hs he hc =>
    exact inv_sending (p := .sendStart) hm rfl hlen (show (s.cur + 1).toNat < s.len.toNat by bv_omega)
      (.inr ((txBitCursor_iff hs).1 htx)) hidle (.inl rfl) (.inr (output hm hs (by decide))) hdur hbuf
  | sendLast =>
    exact inv_emptyScan hw rfl rfl rfl rfl (Nat.zero_le _) rfl hdur hbuf
  | scanStart hm hs hl =>
    exact inv_receiving (p := .recvValidate) hm rfl (.inl (room hm hs (by decide))) hbit trivial
      (Nat.zero_le _) (.inr rfl) (hin hm) (fun _ => .inl rfl) hbuf
  | scanIdle hm hs hl hc =>
    exact inv_receiving (p := .recvScan) hm hs (.inl (room hm hs (by decide))) hbit trivial hc
      (.inl rfl) (hin hm) hdur hbuf
  | scanFlush hm hs =>
    exact inv_emptyScan hw hm hs rfl rfl (Nat.zero_le _) (hin hm) hdur hbuf
  | validateStart hm hs he hl =>
    exact inv_receiving (p := .recvData) hm rfl (.inl (room hm hs (by decide))) (Nat.zero_le _)
      ⟨Nat.zero_le 7, Nat.one_pos⟩ hidle (.inr rfl) (hin hm) (fun _ => .inr rfl) hbuf
  | validateNoise hm hs he hl =>
    exact inv_emptyScan hw hm rfl rfl rfl hidle (hin hm) hdur hbuf
  | recvData hm hs he =>
    obtain ⟨hb, hacc⟩ := (rxBitCursor_iff hs).1 hrx
    exact inv_receiving hm (apply_ite RxPhase.code _ _ _).symm (.inl (room hm hs (by decide)))
      (show (s.bitc + 1).toNat ≤ 8 by bv_omega) (RxPhase.cursor_after_bit hb hacc _) hidle (.inr rfl) (hin hm)
      (fun _ => .inr rfl) hbuf
  | stopCommit hm hs he hl hr =>
    exact inv_receiving (p := .recvPause) hm rfl (.inr ⟨rfl, (len_succ_toNat hw hr).trans_le hr⟩) hbit trivial hidle
      (.inl rfl) (hin hm) hdur (bufferInBounds_write hbuf hr s.cur)
  | stopMissing hm hs =>
    exact inv_receiving (p := .recvPause) hm rfl (.inr ⟨rfl, hlen⟩) hbit trivial hidle (.inl rfl) (hin hm) hdur hbuf
  | recvPause hm hs hr =>
    exact inv_receiving (p := .recvScan) hm rfl (.inl hr) hbit trivial hidle (.inl rfl) (hin hm) hdur hbuf

/-! ### Steps and runs -/

/-- Settles O40: a step is one command, and every effect of a command keeps the invariants. -/
theorem everyStepKeepsTheInvariants : Obligations.EveryStepKeepsTheInvariants := by
  intro s t hi h
  obtain ⟨hw, ⟨-, rfl⟩ | ⟨w, rest, i, -, -, hexec⟩⟩ := step_cases h
  · exact hi
  · exact (effect_of_exec (s := { s with commands := rest }) hw hexec).keeps_inv hw hi

/-- Settles O39: RecvScan with an empty buffer, and a timer that no phase has armed. -/
theorem invariantsHoldAtPowerOn : Obligations.InvariantsHoldAtPowerOn := by
  intro c cs es ls hw
  exact inv_emptyScan hw rfl rfl rfl rfl (Nat.zero_le _) rfl
    (fun h => absurd h Bool.false_ne_true) ⟨Memory.wf_nil, fun _ h => absurd h List.not_mem_nil⟩

/-- A step that faults has met its fault in the command it took. -/
theorem step_fault {s : State} {r : Fault} (h : step s = .fault r) :
    s.cfg.wf ∧ ∃ rest i, exec i { s with commands := rest } = .fault r := by
  unfold step at h
  split at h
  · refine ⟨‹_›, ?_⟩
    cases hc : s.commands with
    | nil => simp only [takeCommand, hc] at h; cases h
    | cons w rest =>
      simp only [takeCommand, hc] at h
      cases hd : decode w with
      | error e => simp [hd] at h
      | ok i => rw [hd] at h; exact ⟨rest, i, h⟩
  · cases h

/-- Under the invariants a step does not fault: the command it takes completes (60_exceptions R207). -/
theorem step_ne_fault {s : State} (hi : Inv s) (r : Fault) : step s ≠ .fault r := by
  intro h
  obtain ⟨hw, rest, i, hf⟩ := step_fault h
  obtain ⟨t, ht, -⟩ := exec_completes (s := { s with commands := rest }) hw hi.1 i
  cases hf.symm.trans ht

theorem run_ne_fault {s : State} (hi : Inv s) (k : Nat) (r : Fault) : run k s ≠ .fault r := by
  induction k generalizing s with
  | zero => exact fun h => by cases h
  | succ k ih =>
    cases hs : step s with
    | next t => rw [run_next hs]; exact ih (everyStepKeepsTheInvariants s t hi hs)
    | fault f => exact absurd hs (step_ne_fault hi f)
    | refused f => rw [run_refused hs]; exact fun h => by cases h

/-- Settles O42: the invariants hold at power-on, every step keeps them, and under them no step faults. -/
theorem runsFromPowerOnKeepInvariantsAndNeverFault : Obligations.RunsFromPowerOnKeepInvariantsAndNeverFault := by
  intro c cs es ls k hw
  have hi := invariantsHoldAtPowerOn c cs es ls hw
  exact ⟨fun _ h => run_keeps everyStepKeepsTheInvariants k hi h, run_ne_fault hi k⟩

end Sys2Proof.Machine
end

section
/-! PROOFS. The registers of 10_state: who writes the configuration and `mode`, where a POLL faults, the codes, the STATUS
word and the state at power-on. -/

namespace Sys2Proof.Machine

/-! ### The writers of the configuration and of `mode` -/

theorem Effect.cfg_eq {i : Instr} {s t : State} (he : Effect s i t) : t.cfg = s.cfg := by
  cases he <;> rfl

/-- Settles O11: no effect of a command writes the configuration. -/
theorem noCommandWritesTheConfig : Obligations.NoCommandWritesTheConfig :=
  fun _ _ _ hw h => (effect_of_exec hw h).cfg_eq

/-- The effects that write `mode` (10_state R21, 60_exceptions R210); every other one leaves it as it was. -/
theorem Effect.mode_cases {i : Instr} {s t : State} (he : Effect s i t) :
    t.mode = s.mode ∨
    (t.mode = .sending ∧ s.state = RxPhase.recvScan.code ∧ s.len = 0 ∧ ∃ b, i = .enq b) ∨
    (t.mode = .receiving ∧ i = .poll ∧ s.state = TxPhase.sendPause.code ∧ timerExpired s = true ∧
      s.len.toNat = s.cur.toNat + 1) ∨
    (t.mode = .receiving ∧ i = .reset) := by
  cases he with
  | enqStart b hm hs hl => exact .inr (.inl ⟨rfl, hs, hl, b, rfl⟩)
  | sendLast hm hs he hc => exact .inr (.inr (.inl ⟨rfl, rfl, hs, he, hc⟩))
  | reset => exact .inr (.inr (.inr ⟨rfl, rfl⟩))
  | _ => exact .inl rfl

/-- Settles O36: the effects that write `mode`. -/
theorem modeChangesOnlyByItsWriters : Obligations.ModeChangesOnlyByItsWriters :=
  fun _ _ _ hw h hne => (effect_of_exec hw h).mode_cases.resolve_left hne

/-! ### Where a POLL faults -/

theorem stateLegal_receiving_iff (c : BitVec 4) : stateLegal .receiving c = true ↔ c.toNat ≤ 4 := by
  revert c
  decide

theorem stateLegal_sending_iff (c : BitVec 4) : stateLegal .sending c = true ↔ 8 ≤ c.toNat ∧ c.toNat ≤ 11 := by
  revert c
  decide

/-- INV2 of 10_state R28 in the codes of 10_state R22. -/
theorem stateLegalForMode_iff (s : State) : StateLegalForMode s ↔
    (s.mode = .receiving ∧ s.state.toNat ≤ 4) ∨ (s.mode = .sending ∧ 8 ≤ s.state.toNat ∧ s.state.toNat ≤ 11) := by
  unfold StateLegalForMode
  cases s.mode with
  | receiving => simp [stateLegal_receiving_iff]
  | sending => simp [stateLegal_sending_iff]

/-- The gated states of 40_timing R104 in the codes of 10_state R22. -/
theorem isGated_iff (c : BitVec 4) : isGated c = true ↔
    c = 0x1 ∨ c = 0x2 ∨ c = 0x3 ∨ c = 0x9 ∨ c = 0xA ∨ c = 0xB := by
  revert c
  decide

/-- In a well-formed configuration a POLL faults exactly outside the states of 10_state R28. -/
theorem poll_fault_iff {s : State} (hw : s.cfg.wf) :
    (∃ why, exec .poll s = .fault (.invariantBroken why)) ↔ ¬SpecInvariants s := by
  constructor
  · rintro ⟨why, h⟩ hi
    obtain ⟨t, ht, -⟩ := poll_completes hi hw
    cases h.symm.trans ht
  · intro hi
    obtain ⟨why, h⟩ := Option.ne_none_iff_exists'.1 (mt brokenInvariant_eq_none.1 hi)
    exact ⟨why, execPoll_broken h⟩

/-- Settles O21: a POLL faults exactly outside `SpecInvariants`, here in the codes of 10_state R22. -/
theorem pollFaultsExactlyOnBrokenInvariants : Obligations.PollFaultsExactlyOnBrokenInvariants := by
  intro s hw
  rw [poll_fault_iff hw]
  refine not_congr ?_
  simp only [SpecInvariants, CountersInRange, stateLegalForMode_iff, SendingHasByte, TxBitCursor, RxBitCursor,
    FullWaitsInPause, GatedIsArmed, isGated_iff, RxPhase.code, TxPhase.code, or_imp, and_assoc]

/-! ### Codes -/

/-- Settles O6: the tables by computation, the legal codes by the two lemmas above. -/
theorem codesOfTheTables : Obligations.CodesOfTheTables :=
  ⟨rfl, rfl, rfl, rfl, rfl, rfl, rfl, rfl, rfl, rfl, rfl, stateLegal_receiving_iff, stateLegal_sending_iff, rfl, rfl,
    rfl, fun _ _ => ⟨rfl, rfl, rfl, rfl, rfl, rfl, rfl, rfl, rfl⟩⟩

/-! ### The STATUS word -/

theorem flagBit_getElem (b : Bool) : (flagBit b)[0] = b := by cases b <;> rfl

theorem Mode.bit_getElem (m : Mode) : m.bit[0] = decide (m = .sending) := by cases m <;> rfl

/-- Bits [3:0] of the STATUS word are `state` (10_state R35). -/
theorem statusOf_state (s : State) : (statusOf s).extractLsb' 0 4 = s.state := by
  apply BitVec.eq_of_getLsbD_eq
  intro j hj
  have h5 : j < 5 := by omega
  have h6 : j < 6 := by omega
  have h8 : j < 8 := by omega
  have h16 : j < 16 := by omega
  simp [statusOf, hj, h5, h6, h8, h16]

/-- Bits [15:8] of the STATUS word are `len` (10_state R35): every other field ends below them. -/
theorem statusOf_len (s : State) : (statusOf s).extractLsb' 8 8 = s.len := by
  apply BitVec.eq_of_getLsbD_eq
  intro j hj
  have hflag (b : BitVec 1) (k : Nat) (hk : k < 8) : b.getLsbD (8 + j - k) = false :=
    BitVec.getLsbD_of_ge b _ (by omega)
  have hstate : s.state.getLsbD (8 + j) = false := BitVec.getLsbD_of_ge _ _ (by omega)
  have h16 : 8 + j < 16 := by omega
  simp [statusOf, hj, h16, hflag, hstate]

/-- Settles O14: STATUS answers `statusOf`, read here field by field. -/
theorem statusReturnsItsFields : Obligations.StatusReturnsItsFields := by
  intro s
  refine ⟨statusOf s, rfl, statusOf_state s, ?_, ?_, ?_, ?_, statusOf_len s⟩
  · simp [statusOf, Mode.bit_getElem]
  · simp [statusOf, flagBit_getElem, isFull, Bool.beq_eq_decide_eq]
  · simp [statusOf, flagBit_getElem, isEmpty, Bool.beq_eq_decide_eq]
  · simp [statusOf]

/-! ### Power-on -/

/-- A receiving block in RecvScan with an empty buffer reads STATUS 0x0040 (10_state R35). -/
theorem statusOf_idle {s : State} (hw : s.cfg.wf) (hm : s.mode = .receiving) (hs : s.state = RxPhase.recvScan.code)
    (hl : s.len = 0) : statusOf s = 0x0040#16 := by
  have hf : isFull s = false := by
    have := hw.1
    simp [isFull, hl]
    omega
  simp only [statusOf, hf, (isEmpty_eq_true s).2 hl, hm, hs, hl]
  rfl

/-- Settles O13: the fields by definition, STATUS by `statusOf_idle`. -/
theorem powerOnIsTheStateAfterReset : Obligations.PowerOnIsTheStateAfterReset :=
  fun _ hw => ⟨rfl, rfl, rfl, rfl, rfl, rfl, rfl, rfl, rfl, statusOf_idle hw rfl rfl rfl, rfl⟩

end Sys2Proof.Machine
end

section
/-! PROOFS. Stale bytes of the buffer change nothing that is seen (20_memory R56), and the step by what the host has
issued. -/

namespace Sys2Proof.Machine

/-! ### The step, by what the host has issued -/

section Step

variable {s : State} (hw : s.cfg.wf)
include hw

theorem step_idle (hc : s.commands = []) : step s = .next s := by
  simp only [step, if_pos hw, takeCommand, hc]

theorem step_decoded {w : Word} {rest : List Word} {i : Instr} (hc : s.commands = w :: rest) (hd : decode w = .ok i) :
    step s = exec i { s with commands := rest } := by
  simp only [step, if_pos hw, takeCommand, hc, hd]

theorem step_illegal {w : Word} {rest : List Word} {e : IllegalWord} (hc : s.commands = w :: rest)
    (hd : decode w = .error e) : step s = .refused (.illegalCommand w) := by
  simp only [step, if_pos hw, takeCommand, hc, hd]

end Step

/-! ### Buffers that agree below `len` -/

/-- Two buffers that hold the same bytes below `n`: with `n` = `len`, they differ only in stale bytes (20_memory R56). -/
def AgreeBelow (n : Nat) (m m' : Memory) : Prop := ∀ a, a < n → m.read a = m'.read a

theorem agreeBelow_zero (m m' : Memory) : AgreeBelow 0 m m' := fun _ h => absurd h (Nat.not_lt_zero _)

/-- The same byte stored behind the bytes held. -/
theorem AgreeBelow.write {n : Nat} {m m' : Memory} (h : AgreeBelow n m m') (hm : m.wf) (hm' : m'.wf) (v : Byte) :
    AgreeBelow (n + 1) (m.write n v) (m'.write n v) := by
  intro a ha
  rcases Nat.lt_succ_iff_lt_or_eq.1 ha with hlt | rfl
  · rw [Memory.read_write_other hlt.ne, Memory.read_write_other hlt.ne, h a hlt]
  · rw [Memory.read_write_same hm, Memory.read_write_same hm']

theorem memReadRange_agree {s : State} {m : Memory} (h : AgreeBelow s.len.toNat s.buf m) (i n : Nat) :
    memReadRange { s with buf := m } i n = memReadRange s i n := by
  induction n generalizing i with
  | zero => rfl
  | succ n ih =>
    have hread : memRead { s with buf := m } i = memRead s i := by
      by_cases hi : i < s.len.toNat
      · simp only [memRead, hi, if_true, h i hi]
      · simp only [memRead, hi, if_false]
    simp only [memReadRange, hread, ih]

theorem Mode.receiving_or_sending (m : Mode) : m = .receiving ∨ m = .sending := by
  cases m with
  | receiving => exact .inl rfl
  | sending => exact .inr rfl

/-- DRAIN while Receiving, whether or not the bytes below `len` can be read (43_driver_and_host R173). -/
theorem drain_eq_andThen {s : State} (hmode : s.mode = .receiving) :
    exec .drain s = andThen (memReadRange (startCommand s) 0 s.len.toNat) fun out =>
      .next (respond (.drained out.length out) { startCommand s with len := 0 }) := by
  simp only [exec_drain, execDrain, startCommand_mode, startCommand_len, hmode]

/-! ### Stale bytes are unobservable -/

/-- Two outcomes that the host and the line cannot tell apart (20_memory R56). -/
inductive Alike : Result State → Result State → Prop
  | next {s t : State} (h : SameButStale s t) : Alike (.next s) (.next t)
  | fault (r : Fault) : Alike (.fault r) (.fault r)
  | refused (r : Refusal) : Alike (.refused r) (.refused r)

section Stale

variable {s : State} {m : Memory} (hw : s.cfg.wf) (hbuf : s.buf.wf) (hm : m.wf)
  (ha : AgreeBelow s.len.toNat s.buf m)
include hw hbuf hm ha

/-- `len + 1` bytes agree once the same byte is stored at `len`. -/
theorem agreeBelow_store (hr : s.len.toNat < s.cfg.capacity) (v : Byte) :
    AgreeBelow (s.len + 1).toNat (s.buf.write s.len.toNat v) (m.write s.len.toNat v) :=
  len_succ_toNat hw hr ▸ ha.write hbuf hm v

/-- What POLL does with other stale bytes: the same case of the same rule. Only SendData reads the buffer, below `len`,
and only RecvStop writes it, at `len`. -/
theorem Effect.poll_alike {u : State} (hi : SpecInvariants s) (hu : Effect s .poll u) :
    ∃ v, exec .poll { s with buf := m } = .next v ∧ SameButStale u v := by
  have h0 := agreeBelow_zero s.buf m
  cases hu with
  | pollFull hmode hf => exact ⟨_, poll_full hi hmode hf, rfl, ha⟩
  | pollSkip hg he => exact ⟨_, poll_gated_skip hi hg he, rfl, ha⟩
  | sendStart hmode hs => exact ⟨_, poll_sendStart_eq hw hi hmode hs, rfl, ha⟩
  | sendData hmode hs he =>
    obtain ⟨-, -, hbyte, -⟩ := id hi
    refine ⟨_, poll_sendData_due hi hmode hs he, ?_, ha⟩
    simp only [ha _ (hbyte hmode).2]
    rfl
  | sendStop hmode hs he => exact ⟨_, poll_sendStop_due hi hmode hs he, rfl, ha⟩
  | sendMore hmode hs he hc => exact ⟨_, poll_sendPause_more hi hmode hs he hc, rfl, ha⟩
  | sendLast hmode hs he hc => exact ⟨_, poll_sendPause_last hi hmode hs he hc.le, rfl, h0⟩
  | scanStart hmode hs hl => exact ⟨_, poll_recvScan_low hi hmode hs hl, rfl, ha⟩
  | scanIdle hmode hs hl hc => exact ⟨_, poll_recvScan_idle hi hmode hs hl hc, rfl, ha⟩
  | scanFlush hmode hs hl hc => exact ⟨_, poll_recvScan_flush hi hmode hs hl hc, rfl, h0⟩
  | validateStart hmode hs he hl => exact ⟨_, poll_recvValidate_low hi hmode hs he hl, rfl, ha⟩
  | validateNoise hmode hs he hl => exact ⟨_, poll_recvValidate_high hi hmode hs he hl, rfl, h0⟩
  | recvData hmode hs he => exact ⟨_, poll_recvData_due hi hmode hs he, rfl, ha⟩
  | stopCommit hmode hs he hl hr =>
    exact ⟨_, poll_recvStop_high hi hmode hs he hl, rfl, agreeBelow_store hw hbuf hm ha hr s.cur⟩
  | stopMissing hmode hs he hl => exact ⟨_, poll_recvStop_low hi hmode hs he hl, rfl, ha⟩
  | recvPause hmode hs hr => exact ⟨_, poll_recvPause hi hmode hr hs, rfl, ha⟩

theorem poll_alike : Alike (exec .poll s) (exec .poll { s with buf := m }) := by
  cases hb : brokenInvariant s with
  | some why =>
    rw [exec_poll, exec_poll, execPoll_broken hb, execPoll_broken (s := { s with buf := m }) hb]
    exact .fault _
  | none =>
    have hi := brokenInvariant_eq_none.1 hb
    obtain ⟨u, hu, he⟩ := poll_completes hi hw
    obtain ⟨v, hv, hsame⟩ := he.poll_alike hw hbuf hm ha hi
    rw [hu, hv]
    exact .next hsame

theorem enq_alike (b : Byte) : Alike (exec (.enq b) s) (exec (.enq b) { s with buf := m }) := by
  obtain ⟨u, hu, he⟩ := enq_completes hw b
  rw [hu]
  cases he with
  | enqAppend _ hmode hr =>
    rw [enq_append (s := { s with buf := m }) b hmode hr]
    exact .next ⟨rfl, agreeBelow_store hw hbuf hm ha hr b⟩
  | enqFull _ hmode hr =>
    rw [enq_full (s := { s with buf := m }) b hmode hr]
    exact .next ⟨rfl, ha⟩
  | enqStart _ hmode hs hl =>
    rw [enq_start (s := { s with buf := m }) b hw hmode hs hl]
    exact .next ⟨rfl, (agreeBelow_zero s.buf m).write hbuf hm b⟩
  | enqBusy _ hmode hne =>
    rw [enq_busy (s := { s with buf := m }) b hmode hne]
    exact .next ⟨rfl, ha⟩

omit hw hbuf hm in
/-- DRAIN reads only the bytes below `len`, so it also faults alike. -/
theorem drain_alike : Alike (exec .drain s) (exec .drain { s with buf := m }) := by
  rcases s.mode.receiving_or_sending with hmode | hmode
  · have hread : memReadRange (startCommand { s with buf := m }) 0 s.len.toNat =
        memReadRange (startCommand s) 0 s.len.toNat := memReadRange_agree (s := startCommand s) ha 0 _
    rw [drain_eq_andThen hmode, drain_eq_andThen (s := { s with buf := m }) hmode, hread]
    cases memReadRange (startCommand s) 0 s.len.toNat with
    | next out => exact .next ⟨rfl, agreeBelow_zero s.buf m⟩
    | fault r => exact .fault r
    | refused r => exact .refused r
  · rw [drain_sending hmode, drain_sending (s := { s with buf := m }) hmode]
    exact .next ⟨rfl, ha⟩

theorem exec_alike (i : Instr) : Alike (exec i s) (exec i { s with buf := m }) := by
  cases i with
  | reset => exact .next ⟨rfl, agreeBelow_zero s.buf m⟩
  | poll => exact poll_alike hw hbuf hm ha
  | enq b => exact enq_alike hw hbuf hm ha b
  | drain => exact drain_alike ha
  | status => exact .next ⟨rfl, ha⟩

end Stale

/-- A step answers alike whatever the stale bytes are. -/
theorem step_alike {s t : State} (hs : s.buf.wf) (ht : t.buf.wf) (h : SameButStale s t) : Alike (step s) (step t) := by
  obtain ⟨heq, ha⟩ := h
  rw [← heq]
  generalize t.buf = m at ht ha
  by_cases hw : s.cfg.wf
  · obtain ⟨cs, hc⟩ : ∃ cs, s.commands = cs := ⟨_, rfl⟩
    cases cs with
    | nil =>
      rw [step_idle hw hc, step_idle (s := { s with buf := m }) hw hc]
      exact .next ⟨rfl, ha⟩
    | cons w rest =>
      cases hd : decode w with
      | error e =>
        rw [step_illegal hw hc hd, step_illegal (s := { s with buf := m }) hw hc hd]
        exact .refused _
      | ok i =>
        rw [step_decoded hw hc hd, step_decoded (s := { s with buf := m }) hw hc hd]
        exact exec_alike (s := { s with commands := rest }) hw hs ht ha i
  · rw [step_of_not_wf hw, step_of_not_wf (s := { s with buf := m }) hw]
    exact .refused _

/-- Settles O43: `step_alike`, read at each outcome of the step. -/
theorem staleBytesAreUnobservable : Obligations.StaleBytesAreUnobservable := by
  intro s t hs ht h
  have halike := step_alike hs ht h
  generalize step s = o, step t = o' at halike ⊢
  cases halike with
  | next h => exact ⟨_, rfl, h⟩
  | fault r => rfl
  | refused r => rfl

end Sys2Proof.Machine
end

section
/-! PROOFS. What is stored: a command changes the buffer only at the index it stores to (20_memory R50), and bytes
enqueued into an idle block stand in order (20_memory R52). -/

namespace Sys2Proof.Machine

/-! ### Where the buffer changes -/

/-- POLL stores exactly where RecvStop commits (42_receive R144). -/
theorem storeIndex_poll_iff {s : State} {a : Nat} : storeIndex .poll s = some a ↔
    (s.mode = .receiving ∧ s.len.toNat < s.cfg.capacity ∧ s.state = RxPhase.recvStop.code ∧ timerExpired s = true ∧
      pinLevel (afterExpiry s) = HIGH) ∧ a = s.len.toNat := by
  simp [storeIndex, hasRoom_eq_true, eq_comm (a := a)]

/-- ENQ stores behind the others while there is room, and at 0 in an idle block (43_driver_and_host R172). -/
theorem storeIndex_enq_iff {b : Byte} {s : State} {a : Nat} : storeIndex (.enq b) s = some a ↔
    (s.mode = .sending ∧ s.len.toNat < s.cfg.capacity ∧ a = s.len.toNat) ∨
    (s.mode = .receiving ∧ (s.state = RxPhase.recvScan.code ∧ s.len = 0) ∧ a = 0) := by
  rcases s.mode.receiving_or_sending with hmode | hmode
  · simp [storeIndex, hmode, isEmpty_eq_true, eq_comm (a := a)]
  · simp [storeIndex, hmode, hasRoom_eq_true, eq_comm (a := a)]

/-- A command leaves the buffer as it is, or stores its byte at its index. -/
theorem Effect.buf_cases {i : Instr} {s t : State} (he : Effect s i t) :
    t.buf = s.buf ∨ ∃ a, storeIndex i s = some a ∧ t.buf = s.buf.write a (storedByte i s) := by
  cases he with
  | enqAppend b hmode hr => exact .inr ⟨_, storeIndex_enq_iff.2 (.inl ⟨hmode, hr, rfl⟩), rfl⟩
  | enqStart b hmode hs hl => exact .inr ⟨_, storeIndex_enq_iff.2 (.inr ⟨hmode, ⟨hs, hl⟩, rfl⟩), rfl⟩
  | stopCommit hmode hs he hl hr => exact .inr ⟨_, storeIndex_poll_iff.2 ⟨⟨hmode, hr, hs, he, hl⟩, rfl⟩, rfl⟩
  | _ => exact .inl rfl

/-- A command that has an index to store at, stores its byte there. -/
theorem buf_of_storeIndex {i : Instr} {s t : State} {a : Nat} (hw : s.cfg.wf) (h : exec i s = .next t)
    (ha : storeIndex i s = some a) : t.buf = s.buf.write a (storedByte i s) := by
  cases i with
  | poll =>
    obtain ⟨⟨hmode, -, hs, he, hl⟩, rfl⟩ := storeIndex_poll_iff.1 ha
    rw [poll_recvStop_high (execPoll_cases h).1 hmode hs he hl] at h
    cases h
    rfl
  | enq b =>
    rcases storeIndex_enq_iff.1 ha with ⟨hmode, hr, rfl⟩ | ⟨hmode, ⟨hs, hl⟩, rfl⟩
    · rw [enq_append b hmode hr] at h
      cases h
      rfl
    · rw [enq_start b hw hmode hs hl] at h
      cases h
      rfl
  | reset => cases ha
  | drain => cases ha
  | status => cases ha

/-- Settles O17: elsewhere the buffer reads as before, by `Effect.buf_cases`; at the index of the store it reads the byte
stored, by `buf_of_storeIndex`. -/
theorem bufferChangesOnlyWhereStored : Obligations.BufferChangesOnlyWhereStored := by
  intro i s t hw h
  refine ⟨fun a hne => ?_, fun hbuf a ha => ?_⟩
  · rcases (effect_of_exec hw h).buf_cases with heq | ⟨a', ha', heq⟩
    · rw [heq]
    · rw [heq, Memory.read_write_other]
      rintro rfl
      exact hne ha'
  · rw [buf_of_storeIndex hw h ha, Memory.read_write_same hbuf]

/-! ### Bytes enqueued into an idle block -/

/-- The decoder reads every command's own word back (30_encoding R75, R79). -/
theorem decode_encode (i : Instr) : decode (encode i) = .ok i := by
  cases i with
  | enq b =>
    obtain ⟨hop, hrsv, himm⟩ := Laws.WordLayout.enq b
    have hne (w : Word) (hw : opField w ≠ 2) : encode (.enq b) ≠ w := fun h => hw (h ▸ hop)
    rw [decode_eq, if_neg (hne _ (by decide)), if_neg (hne _ (by decide)), if_pos ⟨hop, hrsv⟩, himm]
    rfl
  | reset => decide
  | poll => decide
  | drain => decide
  | status => decide

theorem step_encode {s : State} (hw : s.cfg.wf) {i : Instr} {rest : List Word} (hc : s.commands = encode i :: rest) :
    step s = exec i { s with commands := rest } := step_decoded hw hc (decode_encode i)

/-- The first `n + 1` bytes after a store at `n`. -/
theorem Memory.map_read_write {m : Memory} (hm : m.wf) (n : Nat) (v : Byte) :
    (List.range (n + 1)).map (m.write n v).read = (List.range n).map m.read ++ [v] := by
  rw [List.range_succ, List.map_append, List.map_singleton, Memory.read_write_same hm]
  refine congrArg (· ++ [v]) (List.map_congr_left fun a ha => ?_)
  exact Memory.read_write_other (List.mem_range.1 ha).ne m v

/-- The block built with `c` waits in SendStart with the first `C` of the bytes `xs` in its buffer, in order. -/
structure Enqueued (c : Config) (xs : List Byte) (s : State) : Prop where
  cfg_eq : s.cfg = c
  mode_eq : s.mode = .sending
  state_eq : s.state = TxPhase.sendStart.code
  buf_wf : s.buf.wf
  bytes_eq : (List.range s.len.toNat).map s.buf.read = xs.take c.capacity

theorem Enqueued.len_eq {c : Config} {xs : List Byte} {s : State} (h : Enqueued c xs s) :
    s.len.toNat = (xs.take c.capacity).length := by
  simpa using congrArg List.length h.bytes_eq

/-- The first byte, into an idle block (43_driver_and_host R172). -/
theorem step_enq_idle {s : State} {b : Byte} {cs : List Word} (hw : s.cfg.wf) (hbuf : s.buf.wf)
    (hmode : s.mode = .receiving) (hs : s.state = RxPhase.recvScan.code) (hl : s.len = 0)
    (hc : s.commands = encode (.enq b) :: cs) :
    ∃ t, step s = .next t ∧ Enqueued s.cfg [b] t ∧ t.commands = cs := by
  rw [step_encode hw hc]
  refine ⟨_, enq_start b hw hmode hs hl, ⟨rfl, rfl, rfl, Memory.write_wf hbuf 0 b, ?_⟩, rfl⟩
  rw [List.take_of_length_le hw.1]
  exact Memory.map_read_write hbuf 0 b

section Enqueued

variable {c : Config} {xs : List Byte} {s : State} (hw : c.wf) (h : Enqueued c xs s)
include hw h

/-- A further byte: behind the others while there is room, and dropped with a full buffer (43_driver_and_host R172). -/
theorem Enqueued.step_enq {b : Byte} {cs : List Word} (hc : s.commands = encode (.enq b) :: cs) :
    ∃ t, step s = .next t ∧ Enqueued c (xs ++ [b]) t ∧ t.commands = cs := by
  have hlen := h.len_eq
  obtain ⟨rfl, hmode, hs, hbuf, hbytes⟩ := h
  rw [List.length_take] at hlen
  rw [step_encode hw hc]
  rcases Nat.lt_or_ge s.len.toNat s.cfg.capacity with hr | hf
  · refine ⟨_, enq_append b hmode hr, ⟨rfl, hmode, hs, Memory.write_wf hbuf _ b, ?_⟩, rfl⟩
    have hfit : (xs ++ [b]).length ≤ s.cfg.capacity := by
      rw [List.length_append, List.length_singleton]
      omega
    rw [List.take_of_length_le (by omega)] at hbytes
    simp only [List.take_of_length_le hfit, len_succ_toNat hw hr, Memory.map_read_write hbuf, hbytes]
  · refine ⟨_, enq_full b hmode hf, ⟨rfl, hmode, hs, hbuf, ?_⟩, rfl⟩
    rw [List.take_append_of_le_length (by omega)]
    exact hbytes

/-- A run of ENQ commands in a block that has begun to fill. -/
theorem Enqueued.run_enqs {bs : List Byte} {rest : List Word}
    (hc : s.commands = bs.map (fun b => encode (.enq b)) ++ rest) :
    ∃ t, run bs.length s = .next t ∧ Enqueued c (xs ++ bs) t ∧ t.commands = rest := by
  induction bs generalizing xs s with
  | nil => exact ⟨s, run_zero s, by rwa [List.append_nil], hc⟩
  | cons b bs ih =>
    obtain ⟨u, hstep, hu, hcu⟩ := h.step_enq hw hc
    obtain ⟨t, hrun, ht, hct⟩ := ih hu hcu
    exact ⟨t, (run_next hstep).trans hrun, by rwa [List.append_cons], hct⟩

end Enqueued

/-- Settles O18: the first ENQ leaves the block `Enqueued`, and every further one keeps it so. -/
theorem enqueuedBytesStandInOrder : Obligations.EnqueuedBytesStandInOrder := by
  intro s bs rest hw hi hmode hs hl hne hc
  obtain ⟨-, -, -, hbuf, -⟩ := hi
  cases bs with
  | nil => exact absurd rfl hne
  | cons b bs =>
    obtain ⟨u, hstep, hu, hcu⟩ := step_enq_idle hw hbuf hmode hs hl hc
    obtain ⟨t, hrun, ht, hct⟩ := hu.run_enqs hw hcu
    exact ⟨t, (run_next hstep).trans hrun, ht.mode_eq, ht.state_eq, ht.len_eq, ht.bytes_eq, hct⟩

end Sys2Proof.Machine
end

section
/-! PROOFS. The command word (30_encoding R74 to R79): a word against the word of an instruction, field by field, the rows
of the opcode map, and the words that are no command. -/

namespace Sys2Proof.Machine

/-! ### A word and the instruction it encodes -/

/-- A word is an instruction's word exactly when its three fields are that instruction's (30_encoding R74). -/
theorem eq_encode_iff (w : Word) (i : Instr) :
    w = encode i ↔ opField w = i.opcode ∧ rsvField w = 0 ∧ imm8Field w = i.imm8 := by
  obtain ⟨hop, hrsv, himm⟩ := Laws.WordLayout.of_fields i.opcode i.imm8
  constructor
  · rintro rfl
    exact ⟨hop, hrsv, himm⟩
  · rintro ⟨hop', hrsv', himm'⟩
    exact fields_ext (hop'.trans hop.symm) (hrsv'.trans hrsv.symm) (himm'.trans himm.symm)

/-- What the decoder answers, it answers of that instruction's word. -/
theorem eq_encode_of_decode {w : Word} {i : Instr} (h : decode w = .ok i) : w = encode i := by
  rw [decode_eq] at h
  split at h
  · cases h; assumption
  split at h
  · cases h; assumption
  split at h
  · cases h
    exact (eq_encode_iff w _).2 ⟨And.left ‹_›, And.right ‹_›, rfl⟩
  split at h
  · cases h; assumption
  split at h
  · cases h; assumption
  · cases h

/-- Settles O2: `eq_encode_of_decode` one way, `decode_encode` the other. -/
theorem decodeExactlyInvertsEncode : Obligations.DecodeExactlyInvertsEncode := by
  intro w i
  constructor
  · exact eq_encode_of_decode
  · rintro rfl
    exact decode_encode i

/-! ### The rows of the opcode map -/

/-- A word matches a row exactly when it is the word of the instruction that the row builds from its IMM8
(30_encoding R75, R76). -/
theorem row_matches_iff {r : Row} (hr : r ∈ opcodeRows) (w : Word) :
    w &&& r.mask = r.pattern ↔ w = encode (r.build (imm8Field w)) := by
  simp only [opcodeRows, List.mem_cons, List.not_mem_nil, or_false] at hr
  obtain rfl | rfl | rfl | rfl | rfl := hr
  · exact mask_full w (encode .reset)
  · exact mask_full w (encode .poll)
  · rw [eq_encode_iff]
    exact (mask_enq w).trans (and_congr_right' (and_iff_left rfl).symm)
  · exact mask_full w (encode .drain)
  · exact mask_full w (encode .status)

theorem mnemonic_build {r : Row} (hr : r ∈ opcodeRows) (b : Byte) : (r.build b).mnemonic = r.mnemonic := by
  simp only [opcodeRows, List.mem_cons, List.not_mem_nil, or_false] at hr
  obtain rfl | rfl | rfl | rfl | rfl := hr <;> rfl

theorem decode_of_row {r : Row} (hr : r ∈ opcodeRows) {w : Word} (h : w &&& r.mask = r.pattern) :
    decode w = .ok (r.build (imm8Field w)) :=
  (decodeExactlyInvertsEncode w _).2 ((row_matches_iff hr w).1 h)

/-- Settles O3: `decode_of_row`, and two rows that a word matches build the one instruction it decodes to. -/
theorem wordDecodesToItsOneRow : Obligations.WordDecodesToItsOneRow := by
  intro w r hr h
  refine ⟨decode_of_row hr h, fun r' hr' h' => ?_⟩
  have hsame : r'.build (imm8Field w) = r.build (imm8Field w) := by
    injection (decode_of_row hr' h').symm.trans (decode_of_row hr h)
  rw [← mnemonic_build hr' (imm8Field w), hsame, mnemonic_build hr]

/-! ### The words that are no command -/

/-- The fields of the legal words: OP in 0 to 4, and IMM8 = 0 but on ENQ (30_encoding R77). -/
theorem exists_fields_iff (op : BitVec 4) (imm : Byte) :
    (∃ i : Instr, op = i.opcode ∧ imm = i.imm8) ↔ op.toNat < 5 ∧ (op = 2 ∨ imm = 0) := by
  constructor
  · rintro ⟨i, rfl, rfl⟩
    cases i with
    | enq b => exact ⟨show (2#4).toNat < 5 by decide, .inl rfl⟩
    | _ => exact ⟨by decide, .inr rfl⟩
  · rintro ⟨hop, himm⟩
    have hassigned : ∀ o : BitVec 4, o.toNat < 5 → o = 2 ∨ o ≠ 2 ∧ (o = 0 ∨ o = 1 ∨ o = 3 ∨ o = 4) := by decide
    obtain rfl | ⟨hne, h⟩ := hassigned op hop
    · exact ⟨.enq imm, rfl, rfl⟩
    · obtain rfl := himm.resolve_left hne
      obtain rfl | rfl | rfl | rfl := h
      exacts [⟨.reset, rfl, rfl⟩, ⟨.poll, rfl, rfl⟩, ⟨.drain, rfl, rfl⟩, ⟨.status, rfl, rfl⟩]

/-- The words that decode to an instruction (30_encoding R75, R77). -/
theorem exists_decode_iff (w : Word) : (∃ i, decode w = .ok i) ↔
    rsvField w = 0 ∧ (opField w).toNat < 5 ∧ (opField w = 2 ∨ imm8Field w = 0) := by
  rw [← exists_fields_iff, ← exists_and_left]
  refine exists_congr fun i => ?_
  rw [decodeExactlyInvertsEncode w i, eq_encode_iff, and_left_comm]

/-- The step refuses the next command exactly when it decodes to no instruction (30_encoding R77): a command that decodes
is never refused. -/
theorem step_illegalCommand_iff {s : State} {w : Word} {rest : List Word} (hw : s.cfg.wf)
    (hc : s.commands = w :: rest) : step s = .refused (.illegalCommand w) ↔ ∀ i, decode w ≠ .ok i := by
  cases hd : decode w with
  | ok i =>
    rw [step_decoded hw hc hd]
    exact iff_of_false (neverRefuses_exec i _ _) fun h => h i rfl
  | error e => exact iff_of_true (step_illegal hw hc hd) fun _ h => by cases h

/-- Settles O4: the negation of `exists_decode_iff`, and `step_illegalCommand_iff`. -/
theorem illegalWordsAreRefused : Obligations.IllegalWordsAreRefused := by
  intro w
  refine ⟨?_, fun s rest hw hc => step_illegalCommand_iff hw hc⟩
  rw [← not_exists, exists_decode_iff, not_and_or, not_and_or, not_or, not_lt, or_left_comm]

/-- Settles O1: the seven words are the words of their commands; the eight are computed. -/
theorem opcodeMapWordsDecode : Obligations.OpcodeMapWordsDecode :=
  ⟨decode_encode .reset, decode_encode .poll, decode_encode (.enq 0x00), decode_encode (.enq 0x41),
    decode_encode (.enq 0xFF), decode_encode .drain, decode_encode .status, by decide, by decide, by decide, by decide,
    by decide, by decide, by decide, by decide⟩

end Sys2Proof.Machine
end

section
/-! PROOFS. The assembler's lines (30_encoding R80). -/

namespace Sys2Proof.Machine

/-- ENQ's word with its byte in the low half (30_encoding R75, R80). -/
theorem encode_enqOf {b : Nat} (hb : b ≤ 255) : encode (enqOf b) = 0x2000#16 ||| BitVec.ofNat 16 b := by
  have h8 : b % 2 ^ 8 = b := Nat.mod_eq_of_lt (by omega)
  have h16 : b % 2 ^ 16 = b := Nat.mod_eq_of_lt (by omega)
  apply BitVec.eq_of_toNat_eq
  simp only [encode, enqOf, Instr.opcode, Instr.imm8, BitVec.toNat_append, BitVec.toNat_or, BitVec.toNat_ofNat, h8, h16,
    Nat.zero_mod, Nat.zero_shiftLeft, Nat.zero_or]
  rfl

theorem assembleLine_accepted {l : AsmLine} (h : l.wf = true) : assembleLine l = some (l.expand.map encode) := if_pos h

theorem assembleLine_refused {l : AsmLine} (h : l.wf = false) : assembleLine l = none := by
  rw [assembleLine, h]
  rfl

theorem wf_enqs_iff (bs : List Nat) : (AsmLine.enqs bs).wf = true ↔ bs ≠ [] ∧ ∀ b ∈ bs, b ≤ 255 := by
  simp [AsmLine.wf, operandInRange]

/-- Settles O5: a line is accepted exactly when it is well formed, and its words are those of its instructions. -/
theorem assemblerExpandsLines : Obligations.AssemblerExpandsLines := by
  refine ⟨rfl, rfl, rfl, rfl, fun b hb => ?_, fun b hb => ?_, fun bs hne hbs => ?_, fun bs hbs => ?_, fun n hn => ?_,
    rfl⟩
  · rw [assembleLine_accepted (l := .enq b) (decide_eq_true hb)]
    exact congrArg (fun w => some [w]) (encode_enqOf hb)
  · exact assembleLine_refused (decide_eq_false (Nat.not_le.2 hb))
  · rw [assembleLine_accepted ((wf_enqs_iff bs).2 ⟨hne, hbs⟩), AsmLine.expand, List.map_map]
    exact congrArg some (List.map_congr_left fun b hb => encode_enqOf (hbs b hb))
  · obtain ⟨b, hb, hlt⟩ := hbs
    refine assembleLine_refused (Bool.eq_false_iff.2 fun h => ?_)
    exact absurd (((wf_enqs_iff bs).1 h).2 b hb) (Nat.not_le.2 hlt)
  · rw [assembleLine_accepted (l := .polln n) (decide_eq_true hn), AsmLine.expand, List.map_replicate]
    rfl

end Sys2Proof.Machine
end

section
/-! PROOFS. The actions of one command (30_encoding R81). -/

namespace Sys2Proof.Machine

/-- SendStart of a transmission's first byte emits the most: DirOut, Low and Arm (41_transmit R121). -/
theorem Effect.actions_length_le {i : Instr} {s t : State} (he : Effect s i t) : t.obs.actions.length ≤ 3 := by
  cases he with
  | sendStart =>
    show ((if s.cur = 0 then [.dirOut] else []) ++ [.low, .arm (tBitUs s.cfg)] : List Action).length ≤ 3
    split
    · exact Nat.le_refl 3
    · exact Nat.le_succ 2
  | sendData => exact Nat.le_succ 2
  | sendStop => exact Nat.le_succ 2
  | reset | sendLast | scanStart | validateStart | recvData => exact Nat.le_add_left 1 2
  | _ => exact Nat.zero_le 3

/-- Only POLL and RESET act on the pin and the timer (30_encoding R81). -/
theorem Effect.actions_eq_nil {i : Instr} {s t : State} (he : Effect s i t) (hp : i ≠ .poll) (hr : i ≠ .reset) :
    t.obs.actions = [] := by
  cases he with
  | reset => exact absurd rfl hr
  | status | drain | drainNothing | enqAppend | enqFull | enqStart | enqBusy => rfl
  | _ => exact absurd rfl hp

/-- RESET turns the pin to input and does no more (43_driver_and_host R175). -/
theorem Effect.actions_reset {s t : State} (he : Effect s .reset t) : t.obs.actions = [.dirIn] := by
  cases he with
  | reset => rfl

/-- Settles O35: the actions of each effect. -/
theorem actionsPerCommand : Obligations.ActionsPerCommand := by
  intro i s t hw h
  have he := effect_of_exec hw h
  refine ⟨he.actions_length_le, he.actions_eq_nil, ?_⟩
  rintro rfl
  exact he.actions_reset

end Sys2Proof.Machine
end

section
/-! PROOFS. The wire frame (30_encoding R70 to R72): its ten levels, and the byte assembled from eight samples. -/

namespace Sys2Proof.Machine

/-- Bit `j` of what is assembled from bit `k` on is sample `j - k`; below `k` nothing is set (30_encoding R72). -/
theorem assembleFrom_getLsbD (vs : List Level) (k : Nat) {j : Nat} (hj : j < 8) :
    (assembleFrom k vs).getLsbD j = (decide (k ≤ j) && vs.getD (j - k) LOW) := by
  induction vs generalizing k with
  | nil => simp [assembleFrom]
  | cons v vs ih =>
    rw [assembleFrom, orSample_getLsbD _ _ _ _ hj, ih]
    rcases Nat.lt_trichotomy j k with h | rfl | h
    · simp [Nat.not_le.2 h, Nat.not_le.2 (Nat.lt_succ_of_lt h), h.ne]
    · simp
    · obtain ⟨d, rfl⟩ := Nat.exists_eq_add_of_lt h
      have hd : k + d + 1 - k = d + 1 := by omega
      have hd' : k + d + 1 - (k + 1) = d := by omega
      simp [hd, hd', h.le, h.ne']

/-- The data levels of a frame are the byte's bits, least significant first (30_encoding R71). -/
theorem frameOf_dataLevels (b : Byte) : ((frameOf b).drop 1).take 8 = (List.range 8).map (bitLevel b) := rfl

/-- Settles O48: the assembled byte, bit by bit, by `assembleFrom_getLsbD`. -/
theorem assemblyUndoesTheFrame : Obligations.AssemblyUndoesTheFrame := by
  refine ⟨fun b => BitVec.eq_of_getLsbD_eq fun j hj => ?_, fun vs _ k hk => ?_⟩
  · rw [frameOf_dataLevels, assembleFrom_getLsbD _ 0 hj]
    simp [hj, bitLevel_eq]
  · rw [assembleFrom_getLsbD vs 0 hk]
    simp

end Sys2Proof.Machine
end

section
/-! PROOFS. One frame by POLLs alone, with every expiry sample true: a sender drives the ten levels of the byte at its
cursor, and a receiver that samples a start level and then the ten levels of a byte commits that byte. -/

namespace Sys2Proof.Machine

/-! ### A state by its registers and what is still to come -/

/-- `t` has the registers of `r`, the commands `cs` and the answers `es` of the timer to come, and the line samples
`ls`. -/
structure Faces (r : State) (cs : List Word) (es : List Bool) (ls : List (List Level)) (t : State) : Prop where
  registers_eq : registers t = registers r
  commands_eq : t.commands = cs
  expiries_eq : t.expiries = es
  lines_eq : t.lines = ls

/-- The state with the registers of `r` that faces `cs`, `es` and `ls`, and has shown nothing. -/
def facing (r : State) (cs : List Word) (es : List Bool) (ls : List (List Level)) (draws : Nat) : State :=
  { r with commands := cs, expiries := es, lines := ls, draws := draws, obs := .silent }

theorem Faces.startCommand_eq {r t : State} {cs : List Word} {es : List Bool} {ls : List (List Level)}
    (h : Faces r cs es ls t) : startCommand t = facing r cs es ls t.draws := by
  obtain ⟨hreg, rfl, rfl, rfl⟩ := h
  exact (congrArg (fun s => facing s t.commands t.expiries t.lines t.draws) hreg :)

theorem Faces.pin_eq {r t : State} {cs : List Word} {es : List Bool} {ls : List (List Level)}
    (h : Faces r cs es ls t) : t.pin = r.pin :=
  (congrArg State.pin h.registers_eq :)

/-- The step of a POLL, from the equation of the phase that it runs. -/
theorem Faces.step_poll {r t : State} {cs : List Word} {es : List Bool} {ls : List (List Level)} {P : State → Prop}
    (h : Faces r (encode .poll :: cs) es ls t) (hw : r.cfg.wf)
    (hp : ∀ draws, ∃ u, exec .poll (facing r cs es ls draws) = .next u ∧ P u) : ∃ u, step t = .next u ∧ P u := by
  have hcfg : t.cfg = r.cfg := (congrArg State.cfg h.registers_eq :)
  have hnext : Faces r cs es ls { t with commands := cs } := ⟨h.registers_eq, rfl, h.expiries_eq, h.lines_eq⟩
  have hexec : exec .poll { t with commands := cs } = exec .poll (facing r cs es ls t.draws) :=
    (congrArg (exec .poll) hnext.startCommand_eq :)
  rw [step_encode (hcfg ▸ hw) h.commands_eq, hexec]
  exact hp t.draws

theorem timerExpired_facing (r : State) (cs : List Word) (es : List Bool) (ls : List (List Level)) (draws : Nat) :
    timerExpired (facing r cs (true :: es) ls draws) = true := rfl

section Line

variable {r : State} (h : r.pin.dir = .input) (cs : List Word) (es : List Bool) (l : Level) (ls : List (List Level))
  (draws : Nat)
include h

theorem readFixed_facing : readFixed (facing r cs es ([l] :: ls) draws) = some l := by
  simp [readFixed, facing, h, otherDrivers, lineLevel]

/-- A listening pin reads the one level that another pin drives. -/
theorem pinLevel_facing : pinLevel (facing r cs es ([l] :: ls) draws) = l :=
  pinLevel_fixed (readFixed_facing h cs es l ls draws)

/-- The expiry test before a read leaves the pin and the line as they are. -/
theorem pinLevel_afterExpiry_facing : pinLevel (afterExpiry (facing r cs es ([l] :: ls) draws)) = l :=
  pinLevel_fixed (readFixed_facing h cs es l ls draws)

end Line

/-! ### The frame, level by level -/

theorem frameOf_drop (x : Byte) {k : Nat} (hk : k < 10) :
    (frameOf x).drop k = (frameOf x).getD k HIGH :: (frameOf x).drop (k + 1) := by
  rw [List.getD_eq_getElem _ _ hk]
  exact List.drop_eq_getElem_cons hk

/-! ### The sender -/

theorem drivenLevels_next {k : Nat} {s t : State} (h : step s = .next t) :
    drivenLevels (k + 1) s = t.pin.drives :: drivenLevels k t := by
  rw [drivenLevels, statesOf_next h]
  rfl

section Sender

variable {s : State} (hw : s.cfg.wf) (hi : SpecInvariants s) (hm : s.mode = .sending)
  {cs : List Word} {es : List Bool} {ls : List (List Level)} {t : State}
include hw hi hm

/-- The POLL of SendStart (41_transmit R121). -/
theorem sender_faces_start (hs : s.state = TxPhase.sendStart.code) (hp : s.cur ≠ 0 → s.pin.dir = .output)
    (h : Faces s (encode .poll :: cs) es ls t) : ∃ u, step t = .next u ∧ Faces (sendingBit s 0) cs es ls u := by
  refine h.step_poll hw fun draws => ⟨_, poll_sendStart_eq hw hi hm hs, ?_, rfl, rfl, rfl⟩
  unfold registers
  congr 1
  show Pin.mk (if s.cur = 0 then .output else s.pin.dir) LOW = ⟨.output, LOW⟩
  split
  · rfl
  · rw [hp ‹_›]

/-- A POLL with a true expiry sample: the next level of the frame (41_transmit R122, R123). -/
theorem sender_faces_next {k : Nat} (hk : k ≤ 8) (h : Faces (sendingBit s k) (encode .poll :: cs) (true :: es) ls t) :
    ∃ u, step t = .next u ∧ Faces (sendingBit s (k + 1)) cs es ls u := by
  refine h.step_poll hw fun draws => ?_
  have hi' := sendingBit_spec hi hm k
  have he := timerExpired_facing (sendingBit s k) cs es ls draws
  rcases sendingBit_phase s k with ⟨hk8, hs, -⟩ | ⟨rfl, hs, -⟩ | ⟨hk8, -, -⟩
  · refine ⟨_, poll_sendData_due hi' hm hs he, ?_, rfl, rfl, rfl⟩
    unfold registers
    congr 1
    · exact (sendingBit_succ_state s hk8).symm
    · exact (sendingBit_succ_bitc s hk8).symm
    · exact (sendingBit_succ_pin s hk8).symm
  · exact ⟨_, poll_sendStop_due hi' hm hs he, rfl, rfl, rfl, rfl⟩
  · omega

/-- The rest of a frame, from bit-time `k` to bit-time 9. -/
theorem sender_drives_rest {n k : Nat} (hk : k + n = 9)
    (h : Faces (sendingBit s k) (List.replicate n (encode .poll) ++ cs) (List.replicate n true ++ es) ls t) :
    ∃ u, run n t = .next u ∧ Faces (sendingBit s 9) cs es ls u ∧
      drivenLevels n t = ((frameOf (s.buf.read s.cur.toNat)).drop (k + 1)).map some := by
  induction n generalizing k t with
  | zero =>
    obtain rfl : k = 9 := hk
    exact ⟨t, run_zero t, h, rfl⟩
  | succ n ih =>
    obtain ⟨t', hstep, h'⟩ := sender_faces_next hw hi hm (by omega) h
    obtain ⟨u, hrun, hu, hlevels⟩ := ih (by omega) h'
    refine ⟨u, (run_next hstep).trans hrun, hu, ?_⟩
    rw [drivenLevels_next hstep, hlevels, frameOf_drop _ (show k + 1 < 10 by omega), h'.pin_eq]
    rfl

end Sender

section SenderStart

variable {s : State} (hw : s.cfg.wf) (hi : Inv s) (hm : s.mode = .sending) (hs : s.state = TxPhase.sendStart.code)
  {cs : List Word}
include hw hi hm hs

theorem sender_starts_frame (hc : s.commands = encode .poll :: cs) :
    ∃ t, step s = .next t ∧ Faces (sendingBit s 0) cs s.expiries s.lines t := by
  obtain ⟨hi, ⟨-, hpin⟩, -⟩ := hi
  exact sender_faces_start hw hi hm hs (fun hcur => hpin hm fun h => hcur h.2) ⟨rfl, hc, rfl, rfl⟩

theorem sender_drives_start (hc : s.commands = encode .poll :: cs) : drivenLevels 1 s = [some LOW] := by
  obtain ⟨t, hstep, ht⟩ := sender_starts_frame hw hi hm hs hc
  rw [drivenLevels_next hstep, ht.pin_eq]
  rfl

/-- From SendStart, ten POLLs put the ten levels of the byte at the cursor onto the line (30_encoding R70, R71). -/
theorem sender_drives_frame {es : List Bool} (hc : s.commands = List.replicate 10 (encode .poll) ++ cs)
    (he : s.expiries = List.replicate 9 true ++ es) :
    ∃ u, run 10 s = .next u ∧ Faces (sendingBit s 9) cs es s.lines u ∧
      drivenLevels 10 s = (frameOf (s.buf.read s.cur.toNat)).map some := by
  obtain ⟨t, hstep, ht⟩ := sender_starts_frame hw hi hm hs hc
  obtain ⟨u, hrun, hu, hlevels⟩ := sender_drives_rest (n := 9) hw hi.1 hm rfl (he ▸ ht)
  refine ⟨u, (run_next hstep).trans hrun, hu, ?_⟩
  rw [drivenLevels_next hstep, hlevels, ht.pin_eq]
  rfl

end SenderStart

/-! ### The receiver -/

/-- The receiver `s` with `x` committed behind the bytes it held (42_receive R144). -/
def committed (s : State) (x : Byte) : State :=
  { receivingBit s x 9 with
    buf := s.buf.write s.len.toNat x
    len := s.len + 1
    state := RxPhase.recvPause.code
    timer := ⟨true, tBitUs s.cfg, true⟩ }

section Receiver

variable {s : State} (hw : s.cfg.wf) (hi : SpecInvariants s) (hm : s.mode = .receiving) (hp : s.pin.dir = .input)
  {cs : List Word} {es : List Bool} {ls : List (List Level)} {t : State} {x : Byte}
include hw hi hm hp

/-- The POLL of RecvScan that sees the start level (42_receive R141). -/
theorem receiver_faces_scan (hs : s.state = RxPhase.recvScan.code) (x : Byte)
    (h : Faces s (encode .poll :: cs) es ([LOW] :: ls) t) :
    ∃ u, step t = .next u ∧ Faces (receivingBit s x 0) cs es ls u :=
  h.step_poll hw fun _ =>
    ⟨_, poll_recvScan_low hi hm hs (pinLevel_facing hp _ _ _ _ _), rfl, rfl, rfl, rfl⟩

variable (hr : s.len.toNat < s.cfg.capacity)
include hr

/-- A POLL with a true expiry sample: the start level is confirmed, or a data level assembled (42_receive R142, R143). -/
theorem receiver_faces_next {j : Nat} (hj : j ≤ 8)
    (h : Faces (receivingBit s x j) (encode .poll :: cs) (true :: es) ([(frameOf x).getD j HIGH] :: ls) t) :
    ∃ u, step t = .next u ∧ Faces (receivingBit s x (j + 1)) cs es ls u := by
  have hi' := receivingBit_spec hi hm hr x (show j ≤ 9 by omega)
  match j with
  | 0 =>
    refine h.step_poll hw fun draws => ⟨_, poll_recvValidate_low hi' hm rfl (timerExpired_facing _ cs es _ draws)
      (pinLevel_afterExpiry_facing hp cs _ _ ls draws), ?_, rfl, rfl, rfl⟩
    unfold registers
    congr 1
    exact (partialByte_zero x).symm
  | i + 1 =>
    refine h.step_poll hw fun draws => ⟨_, poll_recvData_due hi' hm (receivingBit_data s x hj)
      (timerExpired_facing _ cs es _ draws), ?_, rfl, rfl, rfl⟩
    rw [pinLevel_afterExpiry_facing (by exact hp)]
    unfold registers
    congr 1
    · exact (receivingBit_succ_state s x hj).symm
    · exact (BitVec.ofNat_add i 1).symm
    · exact (receivingBit_succ_cur s x hj).symm

/-- The POLL of RecvStop that sees the stop level (42_receive R144). -/
theorem receiver_faces_commit (h : Faces (receivingBit s x 9) (encode .poll :: cs) (true :: es) ([HIGH] :: ls) t) :
    ∃ u, step t = .next u ∧ Faces (committed s x) cs es ls u := by
  have hi' := receivingBit_spec hi hm hr x (Nat.le_refl 9)
  refine h.step_poll hw fun draws => ⟨_, poll_recvStop_high hi' hm rfl (timerExpired_facing _ cs es _ draws)
    (pinLevel_afterExpiry_facing hp cs _ _ ls draws), ?_, rfl, rfl, rfl⟩
  unfold registers
  congr 1
  exact congrArg (s.buf.write s.len.toNat) (partialByte_eight x)

/-- The samples from `j` on, up to the commit. -/
theorem receiver_samples_rest {n j : Nat} (hj : j + n = 9)
    (h : Faces (receivingBit s x j) (List.replicate (n + 1) (encode .poll) ++ cs) (List.replicate (n + 1) true ++ es)
      (((frameOf x).drop j).map (fun l => [l]) ++ ls) t) :
    ∃ u, run (n + 1) t = .next u ∧ Faces (committed s x) cs es ls u := by
  induction n generalizing j t with
  | zero =>
    obtain rfl : j = 9 := hj
    obtain ⟨u, hstep, hu⟩ := receiver_faces_commit hw hi hm hp hr h
    exact ⟨u, run_next hstep, hu⟩
  | succ n ih =>
    rw [frameOf_drop x (show j < 10 by omega)] at h
    obtain ⟨t', hstep, h'⟩ := receiver_faces_next hw hi hm hp hr (by omega) h
    obtain ⟨u, hrun, hu⟩ := ih (by omega) h'
    exact ⟨u, (run_next hstep).trans hrun, hu⟩

end Receiver

/-- After the commit: back to RecvScan, or in RecvPause with the buffer full (42_receive R145). -/
def resumed (s : State) (x : Byte) : State :=
  { committed s x with
    state := if s.len.toNat + 1 < s.cfg.capacity then RxPhase.recvScan.code else RxPhase.recvPause.code }

theorem committed_spec {s : State} (hw : s.cfg.wf) (hm : s.mode = .receiving) (hr : s.len.toNat < s.cfg.capacity)
    (x : Byte) : SpecInvariants (committed s x) :=
  ⟨⟨(len_succ_toNat hw hr).trans_le hr, Nat.le_refl 8, Nat.zero_le _⟩, stateLegal_rx (p := .recvPause) hm rfl,
    fun h => absurd (hm.symm.trans h) (by decide), txBitCursor_rx (p := .recvPause) rfl,
    (rxBitCursor_iff (p := .recvPause) rfl).2 trivial, fun _ _ => rfl,
    fun h => absurd h (show ¬isGated RxPhase.recvPause.code = true by decide)⟩

/-- The POLL after the commit: RecvPause with room, or nothing (42_receive R145, 43_driver_and_host R171). -/
theorem receiver_faces_resume {s t : State} {x : Byte} {cs : List Word} {es : List Bool} {ls : List (List Level)}
    (hw : s.cfg.wf) (hm : s.mode = .receiving) (hr : s.len.toNat < s.cfg.capacity)
    (h : Faces (committed s x) (encode .poll :: cs) es ls t) :
    ∃ u, step t = .next u ∧ Faces (resumed s x) cs es ls u := by
  refine h.step_poll hw fun draws => ?_
  have hi := committed_spec hw hm hr x
  have hlen : (committed s x).len.toNat = s.len.toNat + 1 := len_succ_toNat hw hr
  by_cases hroom : s.len.toNat + 1 < s.cfg.capacity
  · refine ⟨_, poll_recvPause hi hm (hlen.trans_lt hroom) rfl, ?_, rfl, rfl, rfl⟩
    simp only [resumed, if_pos hroom]
    rfl
  · refine ⟨_, poll_full hi hm ((Nat.not_lt.1 hroom).trans_eq hlen.symm), ?_, rfl, rfl, rfl⟩
    simp only [resumed, if_neg hroom]
    rfl

/-- From RecvScan, twelve POLLs that see a start level and then the frame of `x` commit `x` and resume
(42_receive R147, R148). -/
theorem receiver_receives_frame {s : State} {x : Byte} {cs : List Word} {es : List Bool} {ls : List (List Level)}
    (hw : s.cfg.wf) (hi : Inv s) (hm : s.mode = .receiving) (hs : s.state = RxPhase.recvScan.code)
    (hr : s.len.toNat < s.cfg.capacity) (hc : s.commands = List.replicate 12 (encode .poll) ++ cs)
    (he : s.expiries = List.replicate 10 true ++ es)
    (hl : s.lines = (LOW :: frameOf x).map (fun l => [l]) ++ ls) :
    ∃ t, run 12 s = .next t ∧ Faces (resumed s x) cs es ls t := by
  obtain ⟨hi, ⟨hpin, -⟩, -⟩ := hi
  obtain ⟨t₁, hscan, h₁⟩ := receiver_faces_scan hw hi hm (hpin hm) hs x ⟨rfl, hc, he, hl⟩
  obtain ⟨t₂, hrun, h₂⟩ := receiver_samples_rest (n := 9) (cs := encode .poll :: cs) hw hi hm (hpin hm) hr rfl h₁
  obtain ⟨t, hstep, ht⟩ := receiver_faces_resume hw hm hr h₂
  refine ⟨t, ?_, ht⟩
  rw [run_next hscan, run_add 10 1, hrun, andThen_ok, run_next hstep, run_zero]

/-! ### The two together -/

/-- Settles O47: the levels that `sender_drives_frame` puts on the line are the samples that `receiver_receives_frame`
asks for. -/
theorem receiverOfTheDrivenLevelsCommitsTheByte : Obligations.ReceiverOfTheDrivenLevelsCommitsTheByte := by
  intro a r es es' cs cs' ls hwa hia hma hsa hca hea hwr hir hmr hsr hroom hcr her hlr
  obtain ⟨-, -, -, hframe⟩ := sender_drives_frame (cs := encode .poll :: cs) (es := true :: es) hwa hia hma hsa hca hea
  rw [sender_drives_start hwa hia hma hsa hca, hframe] at hlr
  obtain ⟨t, hrun, ht⟩ := receiver_receives_frame hwr hir hmr hsr hroom hcr her hlr
  have hlen : t.len = r.len + 1 := (congrArg State.len ht.registers_eq :)
  have hbuf : t.buf = r.buf.write r.len.toNat (a.buf.read a.cur.toNat) := (congrArg State.buf ht.registers_eq :)
  obtain ⟨-, -, -, hwf, -⟩ := hir
  refine ⟨t, hrun, ?_, ?_⟩
  · rw [hlen, len_succ_toNat hwr hroom]
  · rw [hbuf, Memory.read_write_same hwf]

end Sys2Proof.Machine
end

section
/-! PROOFS. The timer and the inputs of 40_timing: what a sample leaves, which commands arm, and which take inputs. -/

namespace Sys2Proof.Machine

/-! ### The expiry sample -/

/-- An expiry seen since the last arm makes every sample true (40_timing R107 (c)). -/
theorem timerExpired_of_seenExpired {s : State} (h : s.timer.seenExpired = true) : timerExpired s = true := by
  simp [timerExpired, h]

/-- A false sample takes its answer and leaves the timer as it was. -/
theorem afterExpiry_of_not_expired {s : State} (h : timerExpired s = false) :
    afterExpiry s =
      { s with expiries := s.expiries.tail, draws := if s.expiries.isEmpty then s.draws + 1 else s.draws } := by
  have hseen : s.timer.seenExpired = timerExpired s := by
    rw [h]
    exact Bool.eq_false_iff.2 fun hs => Bool.eq_false_iff.1 h (timerExpired_of_seenExpired hs)
  simp only [afterExpiry, ← hseen]

/-- Settles O22: a gated POLL skips at a false sample, and this sample leaves the timer as it was. -/
theorem gatedPollWithoutExpirySkips : Obligations.GatedPollWithoutExpirySkips := by
  intro s hi hg he
  rw [poll_gated_skip hi hg he, afterExpiry_of_not_expired (s := startCommand s) he]
  rfl

/-! ### What arms the timer -/

/-- The rows of the arming table: in `s`, a POLL that leads to `t` arms for `d` (40_timing R101). -/
def ArmingRow (s t : State) (d : Nat) : Prop :=
  (s.mode = .receiving ∧ s.state = RxPhase.recvScan.code ∧ pinLevel s = LOW ∧ t.state = RxPhase.recvValidate.code ∧
    d = tValidateUs) ∨
  (s.mode = .receiving ∧ s.state = RxPhase.recvValidate.code ∧ timerExpired s = true ∧
    pinLevel (afterExpiry s) = LOW ∧ t.state = RxPhase.recvData.code ∧ d = tBitUs s.cfg) ∨
  (s.mode = .receiving ∧ s.state = RxPhase.recvData.code ∧ timerExpired s = true ∧ d = tBitUs s.cfg) ∨
  (s.mode = .sending ∧ s.state = TxPhase.sendStart.code ∧ d = tBitUs s.cfg) ∨
  (s.mode = .sending ∧ (s.state = TxPhase.sendData.code ∨ s.state = TxPhase.sendStop.code) ∧ timerExpired s = true ∧
    d = tBitUs s.cfg)

/-- `Arms i s t d`: the command `i` arms for `d` and for nothing else, by a row of the arming table, and leaves the timer
as the arm made it (40_timing R101, R107 (a)). -/
structure Arms (i : Instr) (s t : State) (d : Nat) : Prop where
  eq_poll : i = .poll
  row : ArmingRow s t d
  mem_iff : ∀ d', .arm d' ∈ t.obs.actions ↔ d' = d
  timer_eq : t.timer = ⟨true, d, false⟩

/-- `Unarmed s t`: the command from `s` to `t` does not arm, and touches the timer at most by one expiry sample. -/
structure Unarmed (s t : State) : Prop where
  no_arm : ∀ d, .arm d ∉ t.obs.actions
  timer_cases : t.timer = s.timer ∨ t.timer = (afterExpiry s).timer

/-- SendStart's actions hold one arm, on the first byte of a transmission and on a later one (41_transmit R121). -/
theorem arm_mem_start_iff {p : Prop} [Decidable p] (d d' : Nat) :
    .arm d' ∈ (if p then [Action.dirOut] else []) ++ [.low, .arm d] ↔ d' = d := by
  split <;> simp

/-- SendData's actions hold one arm, whichever level it drives (41_transmit R122). -/
theorem arm_mem_data_iff (v : Level) (d d' : Nat) :
    .arm d' ∈ [Action.arm d, if v then .high else .low] ↔ d' = d := by
  cases v <;> simp

/-- Every effect arms by a row of the arming table, or does not arm. -/
theorem Effect.arms_or_unarmed {i : Instr} {s t : State} (he : Effect s i t) :
    (∃ d, Arms i s t d) ∨ Unarmed s t := by
  cases he with
  | scanStart hm hs hl =>
    exact .inl ⟨_, rfl, .inl ⟨hm, hs, hl, rfl, rfl⟩, by simp, rfl⟩
  | validateStart hm hs he hl =>
    exact .inl ⟨_, rfl, .inr (.inl ⟨hm, hs, he, hl, rfl, rfl⟩), by simp, rfl⟩
  | recvData hm hs he =>
    exact .inl ⟨_, rfl, .inr (.inr (.inl ⟨hm, hs, he, rfl⟩)), by simp, rfl⟩
  | sendStart hm hs =>
    exact .inl ⟨_, rfl, .inr (.inr (.inr (.inl ⟨hm, hs, rfl⟩))), arm_mem_start_iff _, rfl⟩
  | sendData hm hs he =>
    exact .inl ⟨_, rfl, .inr (.inr (.inr (.inr ⟨hm, .inl hs, he, rfl⟩))), arm_mem_data_iff _ _, rfl⟩
  | sendStop hm hs he =>
    exact .inl ⟨_, rfl, .inr (.inr (.inr (.inr ⟨hm, .inr hs, he, rfl⟩))), by simp, rfl⟩
  | reset => exact .inr ⟨by simp, .inl rfl⟩
  | sendLast => exact .inr ⟨by simp, .inr rfl⟩
  | pollSkip | sendMore | validateNoise | stopCommit | stopMissing => exact .inr ⟨fun _ => List.not_mem_nil, .inr rfl⟩
  | _ => exact .inr ⟨fun _ => List.not_mem_nil, .inl rfl⟩

/-- An effect that emits an arm arms for its duration. -/
theorem Effect.arms_of_mem {i : Instr} {s t : State} {d : Nat} (he : Effect s i t) (h : .arm d ∈ t.obs.actions) :
    Arms i s t d := by
  rcases he.arms_or_unarmed with ⟨d', ha⟩ | hu
  · rwa [(ha.mem_iff d).1 h]
  · exact absurd h (hu.no_arm d)

/-- An expiry that was seen stays seen where nothing arms (40_timing R107 (c)). -/
theorem Unarmed.seenExpired {s t : State} (hu : Unarmed s t) (h : s.timer.seenExpired = true) :
    t.timer.seenExpired = true := by
  rcases hu.timer_cases with ht | ht
  · rwa [ht]
  · rw [ht]
    exact timerExpired_of_seenExpired h

/-- Settles O34: an effect that emits an arm does so by a row of the table. -/
theorem armsAreInTheArmingTable : Obligations.ArmsAreInTheArmingTable := by
  intro i s t d hw h hd
  have ha := (effect_of_exec hw h).arms_of_mem hd
  exact ⟨ha.eq_poll, ha.row⟩

/-- Settles O23: a true sample is remembered, an arm forgets it, and an effect that does not arm keeps it. -/
theorem timerAnswersAreSticky : Obligations.TimerAnswersAreSticky := by
  refine ⟨fun s h => timerExpired_of_seenExpired h, fun i s t hw h => ?_⟩
  have he := effect_of_exec hw h
  refine ⟨fun d hd => (he.arms_of_mem hd).timer_eq, fun hno hseen => ?_⟩
  have ht : t.timer.seenExpired = true := by
    rcases he.arms_or_unarmed with ⟨d, ha⟩ | hu
    · exact absurd ((ha.mem_iff d).2 rfl) (hno d)
    · exact hu.seenExpired hseen
  exact ⟨ht, timerExpired_of_seenExpired ht⟩

/-! ### What takes inputs -/

/-- Only POLL takes inputs (40_timing R106, 30_encoding R76). -/
theorem Effect.inputs_eq {i : Instr} {s t : State} (he : Effect s i t) (hp : i ≠ .poll) :
    t.expiries = s.expiries ∧ t.lines = s.lines ∧ t.draws = s.draws := by
  cases he with
  | reset | status | drain | drainNothing | enqAppend | enqFull | enqStart | enqBusy => exact ⟨rfl, rfl, rfl⟩
  | _ => exact absurd rfl hp

/-- The timer is read at most once: in the gated phases (40_timing R106). -/
theorem Effect.expiries_cases {i : Instr} {s t : State} (he : Effect s i t) :
    t.expiries = s.expiries ∨ t.expiries = s.expiries.tail := by
  cases he with
  | pollSkip | sendData | sendStop | sendMore | sendLast | validateStart | validateNoise | recvData | stopCommit
  | stopMissing => exact .inr rfl
  | _ => exact .inl rfl

/-- The pin is read at most once: in the receive phases that sample (30_encoding R76). -/
theorem Effect.lines_cases {i : Instr} {s t : State} (he : Effect s i t) :
    t.lines = s.lines ∨ t.lines = s.lines.tail := by
  cases he with
  | scanStart | scanIdle | scanFlush | validateStart | validateNoise | recvData | stopCommit | stopMissing =>
    exact .inr rfl
  | _ => exact .inl rfl

theorem Effect.commands_eq {i : Instr} {s t : State} (he : Effect s i t) : t.commands = s.commands := by
  cases he <;> rfl

/-- Settles O38: the inputs that each effect takes. -/
theorem inputsAreTakenOnlyByPoll : Obligations.InputsAreTakenOnlyByPoll := by
  intro i s t hw h
  have he := effect_of_exec hw h
  exact ⟨he.inputs_eq, he.expiries_cases, he.lines_cases, he.commands_eq⟩

end Sys2Proof.Machine
end

section
/-! PROOFS. The transmit phases of 41_transmit: the POLL of each, and the eleven POLLs that send one frame. -/

namespace Sys2Proof.Machine

/-! ### The four phases -/

/-- Settles O25: the equation of the POLL in SendStart. -/
theorem sendStartDrivesTheStartBit : Obligations.SendStartDrivesTheStartBit :=
  fun _ hw hi hm hs => poll_sendStart_eq hw hi hm hs

/-- A byte cursor at or past `len` breaks INV3 of 10_state R28, so the POLL faults (20_memory R55). -/
theorem poll_fault_of_cursor_past_len {s : State} (hm : s.mode = .sending) (hc : s.len.toNat ≤ s.cur.toNat) :
    ∃ why, exec .poll s = .fault (.invariantBroken why) := by
  have hbroken : ¬SpecInvariants s := fun ⟨_, _, hbyte, _⟩ => Nat.not_lt.2 hc (hbyte hm).2
  obtain ⟨why, h⟩ := Option.ne_none_iff_exists'.1 (mt brokenInvariant_eq_none.1 hbroken)
  exact ⟨why, execPoll_broken h⟩

/-- Settles O26: the skip and the bit by the equations of the phase, the fault by INV3. -/
theorem sendDataDrivesTheNextBit : Obligations.SendDataDrivesTheNextBit :=
  ⟨fun _ hi hm hs => ⟨poll_gated_skip hi (hs ▸ rfl), poll_sendData_due hi hm hs⟩,
    fun _ hm _ hc => poll_fault_of_cursor_past_len hm hc⟩

/-- Settles O27: the skip and the stop bit by the equations of the phase. -/
theorem sendStopDrivesTheStopBit : Obligations.SendStopDrivesTheStopBit :=
  fun _ hi hm hs => ⟨poll_gated_skip hi (hs ▸ rfl), poll_sendStop_due hi hm hs⟩

/-- The transmit engine's own step at the last byte, whatever the state breaks (41_transmit R124). -/
theorem txStep_sendPause_last {s : State} (hs : s.state = TxPhase.sendPause.code) (he : timerExpired s = true)
    (hc : s.len.toNat ≤ s.cur.toNat + 1) :
    txStep s = .next
      { afterExpiry s with
        mode := .receiving, state := RxPhase.recvScan.code, len := 0, bitc := 0, cur := 0, idle := 0
        pin := ⟨.input, s.pin.out⟩
        obs := ⟨s.obs.response, s.obs.actions ++ [.dirIn], .txDone s.len.toNat⟩ } := by
  simp only [txStep, hs, txPhaseOf_code, sendPause, gated_true he]
  exact congrArg Host.Outcome.next (if_pos hc)

/-- Settles O28: the skip and both ends of the byte by the equations of the phase, the total end by the engine's step. -/
theorem sendPauseEndsTheByte : Obligations.SendPauseEndsTheByte :=
  ⟨fun _ hi hm hs => ⟨poll_gated_skip hi (hs ▸ rfl), poll_sendPause_more hi hm hs,
      fun he hc => ⟨_, poll_sendPause_last hi hm hs he hc⟩⟩,
    fun _ hs he hc => ⟨_, txStep_sendPause_last hs he hc⟩⟩

/-! ### The POLL that closes a frame -/

/-- A run and the levels it drives, one step longer. -/
theorem run_drivenLevels_succ {k : Nat} {s t u : State} (hrun : run k s = .next t) (hstep : step t = .next u) :
    run (k + 1) s = .next u ∧ drivenLevels (k + 1) s = drivenLevels k s ++ [u.pin.drives] := by
  induction k generalizing s with
  | zero =>
    obtain rfl : s = t := by injection hrun
    exact ⟨(run_next hstep).trans (run_zero u), drivenLevels_next hstep⟩
  | succ k ih =>
    cases hs : step s with
    | next s' =>
      obtain ⟨hrun', hlevels⟩ := ih ((run_next hs).symm.trans hrun)
      rw [run_next hs, drivenLevels_next hs, drivenLevels_next hs, hlevels]
      exact ⟨hrun', rfl⟩
    | fault r => cases (run_fault hs).symm.trans hrun
    | refused r => cases (run_refused hs).symm.trans hrun

/-- The sender `s` at SendStart of the byte behind the one it has sent, still driving its stop bit (41_transmit R126). -/
def atNextByte (s : State) : State :=
  { sendingBit s 9 with
    cur := s.cur + 1, state := TxPhase.sendStart.code, timer := ⟨true, tBitUs s.cfg, true⟩ }

/-- The sender `s` once its last byte is sent: flushed, and listening in RecvScan (41_transmit R124, R126). -/
def afterLastByte (s : State) : State :=
  { sendingBit s 9 with
    mode := .receiving, state := RxPhase.recvScan.code, len := 0, bitc := 0, cur := 0, idle := 0
    pin := ⟨.input, HIGH⟩, timer := ⟨true, tBitUs s.cfg, true⟩ }

section Close

variable {s : State} (hw : s.cfg.wf) (hi : SpecInvariants s) (hm : s.mode = .sending)
  {cs : List Word} {es : List Bool} {ls : List (List Level)} {t : State}
  (h : Faces (sendingBit s 9) (encode .poll :: cs) (true :: es) ls t)
include hw hi hm h

/-- With a byte left to send, the POLL of SendPause goes on to it. -/
theorem sender_faces_more (hc : s.cur.toNat + 1 < s.len.toNat) :
    ∃ u, step t = .next u ∧ Faces (atNextByte s) cs es ls u :=
  h.step_poll hw fun draws =>
    ⟨_, poll_sendPause_more (sendingBit_spec hi hm 9) hm rfl (timerExpired_facing _ cs es ls draws) hc,
      rfl, rfl, rfl, rfl⟩

/-- After the last byte, the POLL of SendPause ends the transmission. -/
theorem sender_faces_last (hc : s.len.toNat = s.cur.toNat + 1) :
    ∃ u, step t = .next u ∧ Faces (afterLastByte s) cs es ls u ∧ u.obs.event = .txDone s.len.toNat :=
  h.step_poll hw fun draws =>
    ⟨_, poll_sendPause_last (sendingBit_spec hi hm 9) hm rfl (timerExpired_facing _ cs es ls draws) hc.le,
      ⟨rfl, rfl, rfl, rfl⟩, rfl⟩

end Close

/-- Settles O45: ten POLLs by `sender_drives_frame`, and the eleventh by whether a byte is left to send. -/
theorem elevenPollsSendOneFrame : Obligations.ElevenPollsSendOneFrame := by
  intro s rest es hw hi hm hs hc he
  obtain ⟨u, hrun, hu, hframe⟩ :=
    sender_drives_frame (cs := encode .poll :: rest) (es := true :: es) hw hi hm hs hc he
  obtain ⟨hspec, -⟩ := hi
  obtain ⟨-, -, hbyte, -⟩ := id hspec
  obtain ⟨-, hcur⟩ := hbyte hm
  by_cases hmore : s.cur.toNat + 1 < s.len.toNat
  · obtain ⟨t, hstep, ht⟩ := sender_faces_more hw hspec hm hu hmore
    obtain ⟨hrun', hlevels⟩ := run_drivenLevels_succ hrun hstep
    have reg {α : Type} (f : State → α) := congrArg f ht.registers_eq
    refine ⟨?_, t, hrun', ht.commands_eq, ht.expiries_eq, (reg State.buf :), fun _ => ?_, fun hlast => ?_⟩
    · rw [hlevels, hframe, ht.pin_eq, if_pos hmore]
      rfl
    · exact ⟨((reg State.mode).trans hm :), (reg State.state :), (reg State.len :), (reg State.cur :), ht.pin_eq⟩
    · omega
  · obtain ⟨t, hstep, ht, hevent⟩ := sender_faces_last hw hspec hm hu (by omega)
    obtain ⟨hrun', hlevels⟩ := run_drivenLevels_succ hrun hstep
    have reg {α : Type} (f : State → α) := congrArg f ht.registers_eq
    refine ⟨?_, t, hrun', ht.commands_eq, ht.expiries_eq, (reg State.buf :), fun h => absurd h hmore, fun _ => ?_⟩
    · rw [hlevels, hframe, ht.pin_eq, if_neg hmore]
      rfl
    · exact ⟨(reg State.mode :), (reg State.state :), (reg State.len :), (reg State.bitc :), (reg State.cur :),
        (reg State.idle :), ht.pin_eq, hevent⟩

end Sys2Proof.Machine
end

section
/-! PROOFS. The receive phases of 42_receive: the POLL of each, the idle flush, and the twelve POLLs that receive one
frame. -/

namespace Sys2Proof.Machine

/-! ### The five phases -/

/-- Settles O29: the three equations of the POLL in RecvScan. -/
theorem recvScanDetectsOrCountsIdle : Obligations.RecvScanDetectsOrCountsIdle :=
  fun _ hi hm _ hs => ⟨poll_recvScan_low hi hm hs, poll_recvScan_idle hi hm hs, poll_recvScan_flush hi hm hs⟩

/-- Settles O30: the skip, and the equations of RecvValidate at a LOW and at a HIGH sample. -/
theorem recvValidateConfirmsOrFlushes : Obligations.RecvValidateConfirmsOrFlushes :=
  fun _ hi hm _ hs =>
    ⟨poll_gated_skip hi (hs ▸ rfl), poll_recvValidate_low hi hm hs, poll_recvValidate_high hi hm hs⟩

/-- Settles O31: the skip and the equation of RecvData, with its accumulator read bit by bit. -/
theorem recvDataAssemblesTheNextBit : Obligations.RecvDataAssemblesTheNextBit :=
  fun _ hi hm _ hs =>
    ⟨poll_gated_skip hi (hs ▸ rfl), fun he => ⟨_, orSample_getLsbD _ _ _, poll_recvData_due hi hm hs he⟩⟩

/-- The receive engine's own step at the stop bit of a byte for which there is no room (42_receive R144). -/
theorem rxStep_recvStop_overflow {s : State} (hs : s.state = RxPhase.recvStop.code)
    (hf : s.cfg.capacity ≤ s.len.toNat) (he : timerExpired s = true) (hl : pinLevel (afterExpiry s) = HIGH) :
    rxStep s = .next
      { afterPinRead (afterExpiry s) with
        state := RxPhase.recvPause.code, obs := { s.obs with event := .rxOverflow s.cur } } := by
  have hroom : ¬hasRoom (afterPinRead (afterExpiry s)) = true :=
    mt (hasRoom_eq_true _).1 (Nat.not_lt.2 hf)
  simp only [rxStep, hs, rxPhaseOf_code, recvStop, gated_true he]
  exact (if_pos hl).trans (if_neg hroom)

/-- Settles O32: the skip and both samples by the equations of RecvStop, the overflow by the engine's step. -/
theorem recvStopCommitsOrDiscards : Obligations.RecvStopCommitsOrDiscards :=
  ⟨fun _ hi hm _ hs => ⟨poll_gated_skip hi (hs ▸ rfl), poll_recvStop_high hi hm hs, poll_recvStop_low hi hm hs⟩,
    fun _ => rxStep_recvStop_overflow⟩

/-- Settles O33: the equation of the POLL in RecvPause. -/
theorem recvPauseReturnsToScan : Obligations.RecvPauseReturnsToScan :=
  fun _ hi hm hr hs => poll_recvPause hi hm hr hs

/-! ### The idle flush -/

/-- The next `n` reads of the line `ls` give HIGH; a read past its end does (log 5). -/
def Quiet (n : Nat) (ls : List (List Level)) : Prop := ∀ ds ∈ ls.take n, lineLevel ds = some HIGH

theorem Quiet.head {n : Nat} {ls : List (List Level)} (h : Quiet (n + 1) ls) : lineLevel (ls.headD []) = some HIGH := by
  cases ls with
  | nil => rfl
  | cons ds ls => exact h ds List.mem_cons_self

theorem Quiet.tail {n : Nat} {ls : List (List Level)} (h : Quiet (n + 1) ls) : Quiet n ls.tail := by
  cases ls with
  | nil => simp [Quiet]
  | cons ds ls => exact fun d hd => h d (List.mem_cons_of_mem ds hd)

/-- The receiver `s` after `i` idle POLLs (42_receive R141). -/
def idled (s : State) (i : Nat) : State := { s with idle := i }

theorem idled_spec {s : State} (hi : SpecInvariants s) {i : Nat} (h : i ≤ s.cfg.idleThreshold) :
    SpecInvariants (idled s i) := by
  obtain ⟨⟨hlen, hbitc, -⟩, hrest⟩ := hi
  exact ⟨⟨hlen, hbitc, h⟩, hrest⟩

/-- A listening pin reads HIGH on a quiet line. -/
theorem pinLevel_facing_quiet {r : State} (h : r.pin.dir = .input) (cs : List Word) (es : List Bool)
    {ls : List (List Level)} {n : Nat} (hq : Quiet (n + 1) ls) (draws : Nat) :
    pinLevel (facing r cs es ls draws) = HIGH :=
  pinLevel_fixed (by rw [← hq.head]; simp only [readFixed, facing, h, otherDrivers])

section Idle

variable {s : State} (hw : s.cfg.wf) (hi : SpecInvariants s) (hm : s.mode = .receiving) (hp : s.pin.dir = .input)
  (hs : s.state = RxPhase.recvScan.code) {cs : List Word} {es : List Bool} {t : State}
include hw hi hm hp hs

/-- A POLL of a quiet line within the threshold counts it (42_receive R141). -/
theorem receiver_counts_idle {i n : Nat} {ls : List (List Level)} (hk : i + 1 ≤ s.cfg.idleThreshold)
    (hq : Quiet (n + 1) ls) (h : Faces (idled s i) (encode .poll :: cs) es ls t) :
    ∃ u, step t = .next u ∧ Faces (idled s (i + 1)) cs es ls.tail u :=
  h.step_poll hw fun draws =>
    ⟨_, poll_recvScan_idle (idled_spec hi (Nat.le_of_succ_le hk)) hm hs (pinLevel_facing_quiet hp cs es hq draws) hk,
      rfl, rfl, rfl, rfl⟩

/-- `k` POLLs within the threshold count, on a line that stays quiet for `n` reads more. -/
theorem receiver_idles {k n i : Nat} {ls : List (List Level)} (hk : i + k ≤ s.cfg.idleThreshold)
    (hq : Quiet (n + k) ls) (h : Faces (idled s i) (List.replicate k (encode .poll) ++ cs) es ls t) :
    ∃ u, run k t = .next u ∧ Faces (idled s (i + k)) cs es (ls.drop k) u ∧ Quiet n (ls.drop k) := by
  induction k generalizing i ls t with
  | zero => exact ⟨t, run_zero t, h, hq⟩
  | succ k ih =>
    obtain ⟨t', hstep, h'⟩ := receiver_counts_idle hw hi hm hp hs (by omega) hq h
    obtain ⟨u, hrun, hu⟩ := ih (by omega) hq.tail h'
    rw [List.drop_tail, Nat.add_assoc, Nat.add_comm 1 k] at hu
    exact ⟨u, (run_next hstep).trans hrun, hu⟩

/-- The first `k` of `k + n` POLLs of a quiet line, from `idle` = 0. -/
theorem receiver_idles_from_zero (hz : s.idle = 0) {k n : Nat} (hk : k ≤ s.cfg.idleThreshold)
    (hq : Quiet (k + n) s.lines) (hc : s.commands = List.replicate (k + n) (encode .poll) ++ cs) :
    ∃ u, run k s = .next u ∧
      Faces (idled s k) (List.replicate n (encode .poll) ++ cs) s.expiries (s.lines.drop k) u ∧
      Quiet n (s.lines.drop k) := by
  have hstart : idled s 0 = s := by rw [← hz]; rfl
  rw [List.replicate_add, List.append_assoc] at hc
  rw [Nat.add_comm] at hq
  have h := receiver_idles hw hi hm hp hs (i := 0) ((Nat.zero_add k).trans_le hk) hq
    ⟨congrArg registers hstart.symm, hc, rfl, rfl⟩
  rwa [Nat.zero_add] at h

/-- The POLL of a quiet line at the threshold flushes (42_receive R141). -/
theorem receiver_flushes_idle {n : Nat} {ls : List (List Level)} (hq : Quiet (n + 1) ls)
    (h : Faces (idled s s.cfg.idleThreshold) (encode .poll :: cs) es ls t) :
    ∃ u, step t = .next u ∧ Faces (idled (flush s) 0) cs es ls.tail u ∧ u.obs.event = .idleTimeout :=
  h.step_poll hw fun draws =>
    ⟨_, poll_recvScan_flush (idled_spec hi (Nat.le_refl _)) hm hs (pinLevel_facing_quiet hp cs es hq draws)
      (Nat.lt_succ_self _), ⟨rfl, rfl, rfl, rfl⟩, rfl⟩

end Idle

/-- Settles O44: `receiver_idles_from_zero` up to the threshold, then `receiver_flushes_idle`. -/
theorem idleLineFlushesAfterThreshold : Obligations.IdleLineFlushesAfterThreshold := by
  intro s rest hw hi hm hs hz hc hl
  obtain ⟨hspec, ⟨hpin, -⟩, -⟩ := hi
  constructor
  · intro k hk
    obtain ⟨n, hn⟩ := Nat.exists_eq_add_of_le (Nat.le_add_right_of_le hk : k ≤ s.cfg.idleThreshold + 1)
    rw [hn] at hc hl
    obtain ⟨t, hrun, ht, -⟩ := receiver_idles_from_zero hw hspec hm (hpin hm) hs hz hk hl hc
    have reg {α : Type} (f : State → α) := congrArg f ht.registers_eq
    exact ⟨t, hrun, (reg State.idle :), (reg State.len :), (reg State.buf :), ((reg State.state).trans hs :)⟩
  · obtain ⟨u, hrun, hu, hq⟩ :=
      receiver_idles_from_zero (n := 1) hw hspec hm (hpin hm) hs hz (Nat.le_refl _) hl hc
    obtain ⟨t, hstep, ht, hevent⟩ := receiver_flushes_idle hw hspec hm (hpin hm) hs hq hu
    have reg {α : Type} (f : State → α) := congrArg f ht.registers_eq
    refine ⟨t, ?_, (reg State.idle :), (reg State.len :), (reg State.bitc :), (reg State.cur :),
      ((reg State.state).trans hs :), ((reg State.mode).trans hm :), hevent, ht.commands_eq⟩
    rw [run_add, hrun, andThen_ok, run_next hstep, run_zero]

/-! ### One frame -/

/-- Settles O46: `receiver_receives_frame`, read off field by field. -/
theorem twelvePollsReceiveOneFrame : Obligations.TwelvePollsReceiveOneFrame := by
  intro s b rest es ls hw hi hm hs hroom hc he hl
  obtain ⟨t, hrun, ht⟩ := receiver_receives_frame hw hi hm hs hroom hc he hl
  obtain ⟨-, -, -, hwf, -⟩ := hi
  have reg {α : Type} (f : State → α) := congrArg f ht.registers_eq
  have hlen : t.len.toNat = s.len.toNat + 1 :=
    (congrArg BitVec.toNat (reg State.len :)).trans (len_succ_toNat hw hroom)
  have hbuf : t.buf = s.buf.write s.len.toNat b := (reg State.buf :)
  refine ⟨t, hrun, ht.commands_eq, ht.expiries_eq, ht.lines_eq, ((reg State.mode).trans hm :), hlen,
    (reg State.idle :), (reg State.state :), ?_⟩
  rw [hlen, hbuf, Memory.map_read_write hwf]

end Sys2Proof.Machine
end

section
/-! PROOFS. The driver and the host's commands of 43_driver_and_host: the step, RESET, ENQ, DRAIN, POLL's dispatch, and that
every command completes. -/

namespace Sys2Proof.Machine

/-! ### The step -/

/-- A command's own word, issued by its number, is that command's word. -/
theorem withFetchWord_encode (s : State) (i : Instr) :
    s.withFetchWord 16 (encode i).toNat = issueNext (encode i) s := by
  rw [State.withFetchWord, Nat.mod_eq_of_lt (encode i).isLt, BitVec.ofNat_toNat, BitVec.setWidth_eq]

/-- Settles O7: `step_decoded`, and `step_encode` on the command issued next. -/
theorem stepRunsDecodedCommand : Obligations.StepRunsDecodedCommand := by
  refine ⟨fun _ _ _ _ hw hc hd => step_decoded hw hc hd, fun s i hw => ?_⟩
  rw [withFetchWord_encode]
  exact step_encode (s := issueNext (encode i) s) hw rfl

/-- Settles O41: `exec_completes`, without the pin, timer and buffer rules of `Inv`. -/
theorem everyCommandCompletes : Obligations.EveryCommandCompletes := by
  intro i s hw hi
  obtain ⟨t, ht, -⟩ := exec_completes hw hi.1 i
  exact ⟨t, ht⟩

/-! ### RESET, ENQ and DRAIN -/

/-- Settles O12: both RESETs by definition, STATUS by `statusOf_idle`. -/
theorem resetReinitialises : Obligations.ResetReinitialises :=
  fun _ => ⟨_, rfl, rfl, fun hw => statusOf_idle hw rfl rfl rfl, rfl⟩

/-- Settles O16: the four equations of ENQ. -/
theorem enqAcceptsOrRejects : Obligations.EnqAcceptsOrRejects :=
  fun _ b hw => ⟨enq_append b, enq_full b, enq_start b hw, enq_busy b⟩

/-- DRAIN of an empty buffer returns nothing and changes nothing, in either mode (43_driver_and_host R173). -/
theorem drain_empty {s : State} (hl : s.len = 0) :
    exec .drain s = .next { s with obs := ⟨.drained 0 [], [], .none⟩ } := by
  rcases Mode.receiving_or_sending s.mode with hm | hm
  · have hlen : s.len.toNat ≤ s.cfg.capacity := hl ▸ Nat.zero_le _
    simpa [hl] using drain_receiving hm hlen
  · exact drain_sending hm

/-- Settles O15: the two equations of DRAIN, and `drain_empty` for the second DRAIN. -/
theorem drainReturnsTheValidBytes : Obligations.DrainReturnsTheValidBytes := by
  refine fun s hlen => ⟨fun hm => ⟨drain_receiving hm hlen, fun t ht => ?_⟩, drain_sending⟩
  rw [drain_receiving hm hlen] at ht
  cases ht
  exact drain_empty rfl

/-! ### POLL -/

/-- Settles O19: the fault on an empty buffer, and the three equations of the dispatch. -/
theorem pollDispatchesByMode : Obligations.PollDispatchesByMode :=
  fun _ => ⟨fun hm hl => ⟨_, execPoll_sendingEmpty hm hl⟩, poll_sending, poll_receiving, poll_full⟩

end Sys2Proof.Machine
end

section
/-! PROOFS. The conditions and events of 60_exceptions: no command pending, the fault on an illegal code, the cause of each
event, the line, and the blocks of the reference environment. -/

namespace Sys2Proof.Machine

/-- Settles O8: `step_idle`. -/
theorem noCommandChangesNothing : Obligations.NoCommandChangesNothing := fun _ hw hc => step_idle hw hc

/-! ### A code that is no phase of the engine of `mode` -/

/-- A code that names a phase is broken as the other engine's (60_exceptions R207). -/
theorem brokenState_of_phase {c : BitVec 4} (h : c.toNat ≤ 4 ∨ 8 ≤ c.toNat ∧ c.toNat ≤ 11) :
    brokenState c = .stateIllegalForMode := by
  revert c
  decide

/-- A code that names no phase is broken as reserved (60_exceptions R207). -/
theorem brokenState_of_reserved {c : BitVec 4} (h : (5 ≤ c.toNat ∧ c.toNat ≤ 7) ∨ 12 ≤ c.toNat) :
    brokenState c = .reservedState := by
  revert c
  decide

/-- POLL at an illegal code, unless it faults for Sending with no byte (43_driver_and_host R171). -/
theorem execPoll_illegalState {s : State} (hb : s.mode = .sending → s.len ≠ 0) (hs : ¬StateLegalForMode s) :
    execPoll s = .fault (.invariantBroken (brokenState s.state)) := by
  have hbyte : ¬(s.mode = .sending ∧ isEmpty s = true) := fun ⟨hm, he⟩ => hb hm ((isEmpty_eq_true s).1 he)
  exact execPoll_broken (by rw [brokenInvariant, if_neg hbyte, if_pos hs])

/-- Settles O20: `execPoll_illegalState`, with the legal codes of each mode and the reason that each other code gives. -/
theorem pollFaultsOnAnIllegalState : Obligations.PollFaultsOnAnIllegalState := by
  intro s
  constructor
  · intro hm hl
    have fault (hc : ¬(8 ≤ s.state.toNat ∧ s.state.toNat ≤ 11)) :=
      execPoll_illegalState (fun _ => hl) (by rwa [StateLegalForMode, hm, stateLegal_sending_iff])
    exact ⟨fun hc => brokenState_of_phase (.inl hc) ▸ fault (by omega),
      fun hc => brokenState_of_reserved hc ▸ fault (by omega)⟩
  · intro hm
    have fault (hc : ¬s.state.toNat ≤ 4) := execPoll_illegalState (fun h => absurd (hm.symm.trans h) (by decide))
      (by rwa [StateLegalForMode, hm, stateLegal_receiving_iff])
    exact ⟨fun hc => brokenState_of_phase (.inr hc) ▸ fault (by omega),
      fun hc => brokenState_of_reserved hc ▸ fault (by omega)⟩

/-! ### Events -/

/-- `EventCause i s t ev`: what holds of a command `i` from `s` to `t` that raises the event `ev` (60_exceptions R201). -/
def EventCause (i : Instr) (s t : State) : Event → Prop
  | .none => True
  | .startInvalid => i = .poll ∧ s.mode = .receiving ∧ s.state = RxPhase.recvValidate.code ∧ timerExpired s = true ∧
      pinLevel (afterExpiry s) = HIGH ∧ t.len = 0
  | .idleTimeout => i = .poll ∧ s.mode = .receiving ∧ s.state = RxPhase.recvScan.code ∧ pinLevel s = HIGH ∧
      s.cfg.idleThreshold < s.idle + 1 ∧ t.len = 0
  | .stopMissing b => i = .poll ∧ s.mode = .receiving ∧ s.state = RxPhase.recvStop.code ∧ timerExpired s = true ∧
      pinLevel (afterExpiry s) = LOW ∧ b = s.cur
  | .rxOverflow _ => False
  | .enqFull b => i = .enq b ∧ s.mode = .sending ∧ s.cfg.capacity ≤ s.len.toNat
  | .enqBusy b => i = .enq b ∧ s.mode = .receiving ∧ ¬(s.state = RxPhase.recvScan.code ∧ s.len = 0)
  | .commit b n => i = .poll ∧ s.mode = .receiving ∧ s.state = RxPhase.recvStop.code ∧ timerExpired s = true ∧
      pinLevel (afterExpiry s) = HIGH ∧ b = s.cur ∧ n = s.len.toNat
  | .txDone n => i = .poll ∧ s.mode = .sending ∧ s.state = TxPhase.sendPause.code ∧ timerExpired s = true ∧
      s.len.toNat = s.cur.toNat + 1 ∧ n = s.len.toNat

/-- Every effect has the cause of the event it raises. -/
theorem Effect.eventCause {i : Instr} {s t : State} (he : Effect s i t) : EventCause i s t t.obs.event := by
  cases he with
  | validateNoise hm hs he hl => exact ⟨rfl, hm, hs, he, hl, rfl⟩
  | scanFlush hm hs hl hc => exact ⟨rfl, hm, hs, hl, hc, rfl⟩
  | stopMissing hm hs he hl => exact ⟨rfl, hm, hs, he, hl, rfl⟩
  | enqFull b hm hr => exact ⟨rfl, hm, hr⟩
  | enqBusy b hm hb => exact ⟨rfl, hm, hb⟩
  | stopCommit hm hs he hl hr => exact ⟨rfl, hm, hs, he, hl, rfl, rfl⟩
  | sendLast hm hs he hc => exact ⟨rfl, hm, hs, he, hc, rfl⟩
  | _ => trivial

/-- Settles O37: the cause of the event that each effect raises. -/
theorem eventsHaveTheirCauses : Obligations.EventsHaveTheirCauses := by
  intro i s t hw h
  have cause {ev : Event} (hev : t.obs.event = ev) : EventCause i s t ev := hev ▸ (effect_of_exec hw h).eventCause
  exact ⟨cause, cause, fun _ => cause, fun _ => cause, fun _ => cause, fun _ => cause, fun _ _ => cause,
    fun _ => cause⟩

/-! ### The line -/

/-- A read of a fixed level takes one line sample and changes nothing else. -/
theorem afterPinRead_fixed {s : State} {l : Level} (h : readFixed s = some l) :
    afterPinRead s = { s with lines := s.lines.tail } := by
  simp [afterPinRead, h]

section Listening

variable {s : State} (hp : s.pin.dir = .input)
include hp

/-- A listening pin reads the line that the other pins drive (60_exceptions R214). -/
theorem readFixed_listening : readFixed s = lineLevel (otherDrivers s) := by
  simp only [readFixed, hp]

/-- What a listening pin reads at the sample `ds`, where the line's level is fixed, and what the read leaves. -/
theorem read_listening {ds : List Level} {ls : List (List Level)} {l : Level} (hs : s.lines = ds :: ls)
    (hl : lineLevel ds = some l) : pinLevel s = l ∧ afterPinRead s = { s with lines := ls } := by
  have hfix : readFixed s = some l := by rw [readFixed_listening hp, otherDrivers, hs]; exact hl
  exact ⟨pinLevel_fixed hfix, by rw [afterPinRead_fixed hfix, hs, List.tail_cons]⟩

end Listening

/-- Settles O24: the line is fixed with no driver, listed or not, and with one. -/
theorem pinReadsTheLine : Obligations.PinReadsTheLine := by
  refine fun s hp => ⟨fun hs => pinLevel_fixed ?_, fun _ hs => read_listening hp hs lineLevel_nil,
    fun l _ hs => read_listening hp hs (lineLevel_one l)⟩
  rw [readFixed_listening hp, otherDrivers, hs]
  exact lineLevel_nil

/-! ### The blocks of the reference environment -/

/-- A word issued to a block that does not exist does nothing (log 19). -/
theorem RefEnv.issue_absent {e : RefEnv} {k : Nat} (w : Word) (hm : e.members[k]? = none) : e.issue k w = .next e := by
  simp only [RefEnv.issue, hm]

/-- Everything that issuing a word to a block has done, where it answers: a step of this block. -/
theorem RefEnv.issue_cases {e e' : RefEnv} {k : Nat} {w : Word} {m : Member} (hm : e.members[k]? = some m)
    (h : e.issue k w = .next e') :
    ∃ s, step (presented e.time e.draws (driversOf (e.members.eraseIdx k)) w m) = .next s ∧
      e' = { e with members := e.members.set k (settled e.time m s), draws := s.draws } := by
  simp only [RefEnv.issue, hm] at h
  obtain ⟨s, hs, he⟩ := andThen_next h
  cases he
  exact ⟨s, hs, rfl⟩

/-- Settles O49: issuing a word sets the block it is issued to, if there is one. -/
theorem blocksShareNoState : Obligations.BlocksShareNoState := by
  intro e e' k w h
  cases hm : e.members[k]? with
  | none =>
    rw [RefEnv.issue_absent w hm] at h
    cases h
    exact ⟨rfl, rfl, rfl, fun _ _ => rfl⟩
  | some m =>
    obtain ⟨s, -, rfl⟩ := RefEnv.issue_cases hm h
    exact ⟨rfl, rfl, List.length_set, fun _ hj => List.getElem?_set_ne hj.symm⟩

/-- A presented timer that has seen no expiry answers true from its deadline on (60_exceptions R216). -/
theorem timerExpired_presented {m : Member} (hseen : m.state.timer.seenExpired = false) (t draws : Nat)
    (others : List Level) (w : Word) : timerExpired (presented t draws others w m) = true ↔ m.deadline ≤ t := by
  simp [timerExpired, expiryDraw, presented, hseen]

/-- Without an arm the deadline stays. -/
theorem deadlineAfter_unarmed {t old : Nat} {as : List Action} (h : ∀ d, .arm d ∉ as) : deadlineAfter t old as = old := by
  induction as with
  | nil => rfl
  | cons a as ih =>
    have hrest := ih fun d hd => h d (.tail a hd)
    cases a with
    | arm d => exact absurd (.head as) (h d)
    | dirIn | dirOut | high | low => exact hrest

/-- Arms for one duration set the deadline by it. -/
theorem deadlineAfter_armed {t old d : Nat} {as : List Action} (h : .arm d ∈ as) (hd : ∀ d', .arm d' ∈ as → d' = d) :
    deadlineAfter t old as = t + d := by
  induction as generalizing old with
  | nil => exact absurd h List.not_mem_nil
  | cons a as ih =>
    have hrest (old : Nat) (hmem : .arm d ∈ as) : deadlineAfter t old as = t + d :=
      ih hmem fun d' hd' => hd d' (.tail a hd')
    cases a with
    | arm d' =>
      obtain rfl := hd d' (.head as)
      by_cases hmem : .arm d' ∈ as
      · exact hrest _ hmem
      · exact deadlineAfter_unarmed fun d'' hd'' => hmem (hd d'' (.tail _ hd'') ▸ hd'')
    | dirIn | dirOut | high | low => exact hrest old (by simpa using h)

/-- A command that arms arms for one duration, and this sets the deadline (60_exceptions R216). -/
theorem Effect.deadlineAfter_eq {i : Instr} {s u : State} (he : Effect s i u) (t old : Nat) :
    (∀ d, .arm d ∈ u.obs.actions → deadlineAfter t old u.obs.actions = t + d) ∧
    ((∀ d, .arm d ∉ u.obs.actions) → deadlineAfter t old u.obs.actions = old) :=
  ⟨fun _ hd => deadlineAfter_armed hd fun d' => ((he.arms_of_mem hd).mem_iff d').1, deadlineAfter_unarmed⟩

/-- Settles O50: the presented timer, the step as the command it takes, and the deadline that its arms set. -/
theorem refEnvTimerFollowsTheDeadline : Obligations.RefEnvTimerFollowsTheDeadline := by
  intro e e' k i m hm hw hseen h
  refine ⟨timerExpired_presented hseen _ _ _ _, ?_⟩
  obtain ⟨t, ht, rfl⟩ := RefEnv.issue_cases hm h
  rw [step_encode (s := presented ..) hw rfl] at ht
  have he := effect_of_exec (s := { presented .. with commands := [] }) hw ht
  have hcommands : t.commands = [] := he.commands_eq
  refine ⟨t, settled e.time m t, ht, List.getElem?_set_self (List.getElem?_eq_some_iff.1 hm).1, rfl, ?_,
    he.deadlineAfter_eq e.time m.deadline⟩
  rw [settled_state, ← hcommands]

end Sys2Proof.Machine
end
